-- ==== Sys2Proof/Word.lean ====
section
/-! DEFINITION. The values of the machine: words, bytes, and the two forms of operand an instruction carries.

00_scope.md R7: a Word is an unsigned 16-bit integer, the only value type; 30_encoding.md R38: an operand position is of kind V
(value) or T (raw target). -/

namespace Sys2Proof

/-- A Word: an unsigned integer in 0..65535 (00_scope.md R7). -/
abbrev Word := BitVec 16

/-- A byte, as the image, the input lines and the output stream hold them (10_state.md R17, 43_io.md R73). -/
abbrev Byte := BitVec 8

/-- An operand of kind V, value (30_encoding.md R38, R39). -/
inductive ValueOperand where
  /-- A word 0..32767: the value itself. -/
  | literal (v : Word)
  /-- A word 32768..32775: the contents of register `i`, encoded 32768 + `i`. -/
  | register (i : Fin 8)
  /-- A word 32776..65535: resolving it faults InvalidAddress(OPERAND, `w`). -/
  | invalid (w : Word)
  deriving DecidableEq, Repr

/-- An operand of kind T, raw target (30_encoding.md R38, R40; 90_conflicts.md C2). -/
inductive TargetOperand where
  /-- A word 0..7: register `i` named directly by its number. -/
  | direct (i : Fin 8)
  /-- A word 32768..32775: register `i`, encoded 32768 + `i`. -/
  | register (i : Fin 8)
  /-- A word 8..32767 or 32776..65535: the write-back faults InvalidAddress(TARGET, `w`). -/
  | invalid (w : Word)
  deriving DecidableEq, Repr

end Sys2Proof
end

