-- ==== Sys2Proof/Syntax.lean ====
section
/-! DEFINITION. The 22 instructions of spec/opcode_table.json, one constructor per row (30_encoding.md R41), operands in the order
a, b, c. -/

namespace Sys2Proof

/-- One instruction with its operands. The operand kinds are those of the table of 30_encoding.md R41. -/
inductive Instr where
  | halt
  | set (a : TargetOperand) (b : ValueOperand)
  | push (a : ValueOperand)
  | pop (a : TargetOperand)
  | eq (a : TargetOperand) (b c : ValueOperand)
  | gt (a : TargetOperand) (b c : ValueOperand)
  | jmp (a : ValueOperand)
  | jt (a b : ValueOperand)
  | jf (a b : ValueOperand)
  | add (a : TargetOperand) (b c : ValueOperand)
  | mul (a : TargetOperand) (b c : ValueOperand)
  | modulo (a : TargetOperand) (b c : ValueOperand)
  | and (a : TargetOperand) (b c : ValueOperand)
  | or (a : TargetOperand) (b c : ValueOperand)
  | not (a : TargetOperand) (b : ValueOperand)
  | rmem (a : TargetOperand) (b : ValueOperand)
  | wmem (a b : ValueOperand)
  | call (a : ValueOperand)
  | ret
  | out (a : ValueOperand)
  | input (a : TargetOperand)
  | noop
  deriving DecidableEq, Repr

end Sys2Proof
end

