-- ==== Sys2Proof/WellFormed.lean ====
section
/-! DEFINITION. Which terms of `Instr` stand for words: an operand form must hold a word of the range 30_encoding.md R39 and R40 give
that form. Every four words whose first is an opcode 0..21 are the words of a well-formed instruction; an operand that faults when
it is used is well-formed (30_encoding.md R50: "in operand position every word 0..65535 decodes"). -/

namespace Sys2Proof

/-- The word range of each form of a V operand (30_encoding.md R39). -/
def ValueOperand.wf : ValueOperand → Bool
  | .literal v => decide (v.toNat ≤ 32767)
  | .register _ => true
  | .invalid w => decide (32776 ≤ w.toNat)

/-- The word range of each form of a T operand (30_encoding.md R40, R50). -/
def TargetOperand.wf : TargetOperand → Bool
  | .direct _ => true
  | .register _ => true
  | .invalid w => decide ((8 ≤ w.toNat ∧ w.toNat ≤ 32767) ∨ 32776 ≤ w.toNat)

/-- An instruction is well-formed when each of its operands is. -/
def Instr.wf : Instr → Bool
  | .halt | .ret | .noop => true
  | .push a | .jmp a | .call a | .out a => a.wf
  | .pop a | .input a => a.wf
  | .jt a b | .jf a b | .wmem a b => a.wf && b.wf
  | .set a b | .not a b | .rmem a b => a.wf && b.wf
  | .eq a b c | .gt a b c | .add a b c | .mul a b c | .modulo a b c | .and a b c | .or a b c => a.wf && b.wf && c.wf

end Sys2Proof
end

