-- ==== Sys2Proof/Decode.lean ====
section
/-! DEFINITION. From bytes to instructions and back: the byte order of 20_memory.md R25, the operand forms of 30_encoding.md R38-R40,
the opcode map of R41, the refusal of every other opcode word (R42), and the encoder. -/

namespace Sys2Proof

/-- The word of two image bytes, low byte first (20_memory.md R25). -/
def wordOfBytes (lo hi : Byte) : Word := BitVec.ofNat 16 (lo.toNat + 256 * hi.toNat)

/-- Bits [7:0] of a word (20_memory.md R25, 43_io.md R77). -/
def lowByte (w : Word) : Byte := w.setWidth 8

/-- Bits [15:8] of a word (20_memory.md R25). -/
def highByte (w : Word) : Byte := (w >>> 8).setWidth 8

/-- The register a word 32768..32775 refers to (10_state.md R12, 30_encoding.md R39). -/
def registerReference (w : Word) : Option (Fin 8) :=
  if h : 32768 ≤ w.toNat ∧ w.toNat ≤ 32775 then some ⟨w.toNat - 32768, by omega⟩ else none

/-- The word 32768 + i that refers to register i (10_state.md R12). -/
def referenceWord (i : Fin 8) : Word := BitVec.ofNat 16 (32768 + i.val)

/-- The form of a V operand word (30_encoding.md R39). -/
def ValueOperand.ofWord (w : Word) : ValueOperand :=
  if w.toNat ≤ 32767 then .literal w
  else match registerReference w with
    | some i => .register i
    | none => .invalid w

/-- The form of a T operand word (30_encoding.md R40; 90_conflicts.md C2 for the words 0..7). -/
def TargetOperand.ofWord (w : Word) : TargetOperand :=
  if h : w.toNat ≤ 7 then .direct ⟨w.toNat, by omega⟩
  else match registerReference w with
    | some i => .register i
    | none => .invalid w

/-- The instruction whose opcode word is `op` and whose operand words, as far as it has any, are `a`, `b` and `c`
(30_encoding.md R41). `none` when `op` is 22..65535: an invalid opcode (R42). The opcode word is never resolved. -/
def decodeWords (op a b c : Word) : Option Instr :=
  match op.toNat with
  | 0 => some .halt
  | 1 => some (.set (.ofWord a) (.ofWord b))
  | 2 => some (.push (.ofWord a))
  | 3 => some (.pop (.ofWord a))
  | 4 => some (.eq (.ofWord a) (.ofWord b) (.ofWord c))
  | 5 => some (.gt (.ofWord a) (.ofWord b) (.ofWord c))
  | 6 => some (.jmp (.ofWord a))
  | 7 => some (.jt (.ofWord a) (.ofWord b))
  | 8 => some (.jf (.ofWord a) (.ofWord b))
  | 9 => some (.add (.ofWord a) (.ofWord b) (.ofWord c))
  | 10 => some (.mul (.ofWord a) (.ofWord b) (.ofWord c))
  | 11 => some (.modulo (.ofWord a) (.ofWord b) (.ofWord c))
  | 12 => some (.and (.ofWord a) (.ofWord b) (.ofWord c))
  | 13 => some (.or (.ofWord a) (.ofWord b) (.ofWord c))
  | 14 => some (.not (.ofWord a) (.ofWord b))
  | 15 => some (.rmem (.ofWord a) (.ofWord b))
  | 16 => some (.wmem (.ofWord a) (.ofWord b))
  | 17 => some (.call (.ofWord a))
  | 18 => some .ret
  | 19 => some (.out (.ofWord a))
  | 20 => some (.input (.ofWord a))
  | 21 => some .noop
  | _ => none

/-- The opcode of an instruction (30_encoding.md R41). -/
def Instr.opcode : Instr → Word
  | .halt => 0
  | .set _ _ => 1
  | .push _ => 2
  | .pop _ => 3
  | .eq _ _ _ => 4
  | .gt _ _ _ => 5
  | .jmp _ => 6
  | .jt _ _ => 7
  | .jf _ _ => 8
  | .add _ _ _ => 9
  | .mul _ _ _ => 10
  | .modulo _ _ _ => 11
  | .and _ _ _ => 12
  | .or _ _ _ => 13
  | .not _ _ => 14
  | .rmem _ _ => 15
  | .wmem _ _ => 16
  | .call _ => 17
  | .ret => 18
  | .out _ => 19
  | .input _ => 20
  | .noop => 21

/-- The length L of an instruction in words: the opcode word and one word per operand (30_encoding.md R43). -/
def Instr.length : Instr → Nat
  | .halt | .ret | .noop => 1
  | .push _ | .pop _ | .jmp _ | .call _ | .out _ | .input _ => 2
  | .set _ _ | .jt _ _ | .jf _ _ | .not _ _ | .rmem _ _ | .wmem _ _ => 3
  | .eq _ _ _ | .gt _ _ _ | .add _ _ _ | .mul _ _ _ | .modulo _ _ _ | .and _ _ _ | .or _ _ _ => 4

/-- Why a list of bytes is not an instruction. -/
inductive DecodeError where
  /-- The first word is 22..65535 (30_encoding.md R42). -/
  | invalidOpcode (op : Word)
  /-- The list ends before the instruction's last word does. -/
  | truncated
  deriving DecidableEq, Repr

/-- Word `k` of a list of bytes, two bytes a word; bytes past the end count as 0. -/
def byteListWord (bs : List Byte) (k : Nat) : Word := wordOfBytes (bs.getD (2 * k) 0) (bs.getD (2 * k + 1) 0)

/-- The decoder, total on any bytes: the instruction at the head of the list and the bytes after it, or the reason there is none
(30_encoding.md R37, R41, R42, R50). -/
def decode (bs : List Byte) : Except DecodeError (Instr × List Byte) :=
  if bs.length < 2 then .error .truncated
  else match decodeWords (byteListWord bs 0) (byteListWord bs 1) (byteListWord bs 2) (byteListWord bs 3) with
    | none => .error (.invalidOpcode (byteListWord bs 0))
    | some i => if bs.length < 2 * i.length then .error .truncated else .ok (i, bs.drop (2 * i.length))

/-- The word of a V operand (30_encoding.md R39). -/
def ValueOperand.word : ValueOperand → Word
  | .literal v => v
  | .register i => referenceWord i
  | .invalid w => w

/-- The word of a T operand (30_encoding.md R40). -/
def TargetOperand.word : TargetOperand → Word
  | .direct i => BitVec.ofNat 16 i.val
  | .register i => referenceWord i
  | .invalid w => w

/-- The operand words of an instruction, in the order a, b, c (30_encoding.md R37). -/
def Instr.operandWords : Instr → List Word
  | .halt | .ret | .noop => []
  | .push a | .jmp a | .call a | .out a => [a.word]
  | .pop a | .input a => [a.word]
  | .jt a b | .jf a b | .wmem a b => [a.word, b.word]
  | .set a b | .not a b | .rmem a b => [a.word, b.word]
  | .eq a b c | .gt a b c | .add a b c | .mul a b c | .modulo a b c | .and a b c | .or a b c => [a.word, b.word, c.word]

/-- The words of an instruction: the opcode word, then the operand words (30_encoding.md R37). -/
def encode (i : Instr) : List Word := i.opcode :: i.operandWords

/-- A list of words as bytes, each word low byte first (20_memory.md R25). -/
def bytesOfWords : List Word → List Byte
  | [] => []
  | w :: ws => lowByte w :: highByte w :: bytesOfWords ws

/-- The bytes of an instruction as an image holds them. -/
def encodeBytes (i : Instr) : List Byte := bytesOfWords (encode i)

/-- Word `k` of a table word: bits 16k+15..16k of the low `nbits` bits of `w`, 0 above them. -/
def tableWordPart (nbits w k : Nat) : Word := BitVec.ofNat 16 ((w % 2 ^ nbits) / 65536 ^ k)

/-- The instruction the decoder reads from an instruction whose bits are `w` as spec/opcode_table.json numbers them: word k of the
instruction is bits 16k+15..16k, and every bit from `nbits` up is 0. -/
def decodeTableWord (nbits w : Nat) : Option Instr :=
  match decode (bytesOfWords [tableWordPart nbits w 0, tableWordPart nbits w 1, tableWordPart nbits w 2, tableWordPart nbits w 3]) with
  | .ok (i, _) => some i
  | .error _ => none

end Sys2Proof
end

