-- ==== Sys2Proof/Config.lean ====
section
/-! DEFINITION. The one implementation parameter the spec leaves open (00_scope.md R5, 92_eei_decisions.md D8). -/

namespace Sys2Proof

/-- The parameters of the block that the source does not fix: STACK_CAPACITY alone. `none` is the source's unbounded stack;
`some n` is a hardware stack of `n` words (00_scope.md R5, 60_exceptions.md R86). -/
structure Config where
  stackCapacity : Option Nat
  deriving DecidableEq, Repr

/-- The normative default of 00_scope.md R5: an unbounded stack. -/
def Config.default : Config := ⟨none⟩

end Sys2Proof
end

