-- ==== Sys2Proof/Machine/State.lean ====
section
/-! DEFINITION. The state of the block as plain data (10_state.md), the fault causes and records (60_exceptions.md R79, 10_state.md
R20), the two reasons a step has no next state, and the state after reset. -/

namespace Sys2Proof.Machine

/-- The sub-kinds of InvalidAddress (60_exceptions.md R79, codes 3.0 to 3.3). -/
inductive AddressKind where
  /-- Code 3.0: a value operand word is 32776..65535. -/
  | operand
  /-- Code 3.1: a raw target is 8..32767 or 32776..65535. -/
  | target
  /-- Code 3.2: rmem or wmem at a resolved address above 32767. -/
  | memory
  /-- Code 3.3: a word is to be fetched at a pc above 32767. -/
  | fetch
  deriving DecidableEq, Repr

/-- The causes of the block's own faults, with their payloads (60_exceptions.md R79). -/
inductive FaultCause where
  | malformedImage (n : Nat)
  | invalidOpcode (op : Word)
  | invalidAddress (kind : AddressKind) (w : Word)
  | stackUnderflow
  | divideByZero
  | endOfInput
  | stackOverflow
  deriving DecidableEq, Repr

/-- The fault record: the cause, and the address of the opcode word of the instruction that faulted (10_state.md R20). -/
structure FaultRecord where
  cause : FaultCause
  ipc : Word
  deriving DecidableEq, Repr

/-- The run status (10_state.md R19). Waiting for a host line is no status of its own (90_conflicts.md C5). -/
inductive Status where
  | running
  | halted
  | faulted (r : FaultRecord)
  deriving DecidableEq, Repr

/-- The host's answer to a request for a line (43_io.md R74): a line, whose bytes are never none (92_eei_decisions.md D17, so a first
byte and the rest), or the end of input. -/
inductive HostAnswer where
  | line (first : Byte) (rest : List Byte)
  | eof
  deriving DecidableEq, Repr

/-- Memory as byte cells. Word address `a` is the cells `2 * a` (low byte) and `2 * a + 1` (high byte), the layout of the image
(20_memory.md R25); no instruction reaches a byte (R24). A cell that is not listed reads as 0. -/
abbrev Memory := List Host.Cell

/-- The one canonical form of a memory: addresses strictly rising, no cell 0, every cell inside the 32768 words (10_state.md R11). -/
abbrev Memory.wf (m : Memory) : Prop :=
  m.Pairwise (fun c d => c.1 < d.1) ∧ ∀ c ∈ m, c.2 ≠ 0 ∧ c.1 < 65536

/-- The architectural state (10_state.md), the bytes emitted so far (43_io.md R73), and two pieces of the model's own: the host's
answers not yet taken (the inputs of 43_io.md R74), and the parameter STACK_CAPACITY (00_scope.md R5), which no step changes. -/
@[ext]
structure State where
  /-- Memory (10_state.md R11). -/
  mem : Memory
  /-- The registers r0..r7 (10_state.md R12). -/
  x : Vector Word 8
  /-- The program counter, any Word (10_state.md R13). -/
  pc : Word
  /-- The stack; its top is its last entry (10_state.md R16). -/
  stack : List Word
  /-- The pending-input buffer; its head is the next byte (10_state.md R17). -/
  inq : List Byte
  /-- The bytes handed to the host so far, oldest first (43_io.md R73). -/
  outbuf : List Byte
  /-- The run status with the fault record (10_state.md R19, R20). -/
  status : Status
  /-- The host's answers not yet taken, oldest first; empty means that the host has not answered (43_io.md R74). -/
  hostAnswers : List HostAnswer
  /-- The parameters (00_scope.md R5). -/
  config : Config
  deriving DecidableEq, Repr

/-- Why a step has no next state. The block's own faults are no constructor here: a raise is a next state whose status is Faulted
(60_exceptions.md R80). Both constructors are raised by `step` alone and are safe: the spec enables no step there. -/
inductive Fault where
  /-- `step` in a state whose status is Halted: terminal, no step is enabled (10_state.md R19, 42_control.md R66). Safe. -/
  | notEnabledHalted
  /-- `step` in a state whose status is Faulted: terminal, no step is enabled (10_state.md R19, 60_exceptions.md R81). Safe. -/
  | notEnabledFaulted (r : FaultRecord)
  deriving DecidableEq, Repr

/-- Why an instruction has no meaning. Raised by no arm of `exec`: every instruction has its meaning. -/
inductive Refusal where
  /-- An instruction that is not modelled yet, by its mnemonic. Safe. -/
  | notModelled (mnemonic : String)
  deriving DecidableEq, Repr

/-- The state right after reset with the empty image, which is well-formed (10_state.md R22, 70_reset_and_hazards.md R90, R91): every
word of memory 0, registers 0, pc 0, stack, queue and output empty, Running. -/
def State.reset : State where
  mem := []
  x := Vector.replicate 8 0
  pc := 0
  stack := []
  inq := []
  outbuf := []
  status := .running
  hostAnswers := []
  config := Config.default

end Sys2Proof.Machine
end

