-- ==== Sys2Proof/Machine/Ops.lean ====
section
/-! DEFINITION. The named operations every instruction uses: field updates, micro-steps and how they are put in sequence, raising a
fault, memory by word, the fetch of one word, the stack. -/

namespace Sys2Proof.Machine

/-! ### Field updates -/

def State.setMem (s : State) (m : Memory) : State := { s with mem := m }
def State.setX (s : State) (x : Vector Word 8) : State := { s with x := x }
def State.setPc (s : State) (p : Word) : State := { s with pc := p }
def State.setStack (s : State) (st : List Word) : State := { s with stack := st }
def State.setInq (s : State) (q : List Byte) : State := { s with inq := q }
def State.setOutbuf (s : State) (o : List Byte) : State := { s with outbuf := o }
def State.setStatus (s : State) (st : Status) : State := { s with status := st }
def State.setHostAnswers (s : State) (hs : List HostAnswer) : State := { s with hostAnswers := hs }

/-- Register i (00_scope.md R8: `x[i]`). -/
def State.reg (s : State) (i : Fin 8) : Word := s.x.get i

/-- Register i takes the word v (00_scope.md R8: `x[i] <- v`). -/
def State.setReg (s : State) (i : Fin 8) (v : Word) : State := s.setX (s.x.set i v)

/-! ### Micro-steps -/

/-- What one or more micro-steps of an instruction come to. -/
inductive Micro (α : Type) where
  /-- They took effect: the value read, and the state after them. -/
  | done (a : α) (s : State)
  /-- One raised a fault; `s` is the state with the effects before it (60_exceptions.md R83). -/
  | raised (c : FaultCause) (s : State)
  /-- One waits for the host, which has not answered (43_io.md R74). -/
  | waiting
  deriving DecidableEq, Repr

/-- One micro-step after another (00_scope.md R8: statements execute in the order written, nothing after a raise executes). -/
def Micro.bind {α β : Type} (m : Micro α) (f : α → State → Micro β) : Micro β :=
  match m with
  | .done a s => f a s
  | .raised c s => .raised c s
  | .waiting => .waiting

/-- TAKING A FAULT, the block's one exception mechanism (60_exceptions.md R80): the status becomes Faulted with the cause and the
address of the instruction's opcode word. Nothing else is saved and control goes nowhere. There is no return from it (R81). -/
def takeFault (c : FaultCause) (ipc : Word) (s : State) : State := s.setStatus (.faulted ⟨c, ipc⟩)

/-- The whole instruction, atomically (30_encoding.md R45), from the state `s` it starts in: its effects; or the fault it raised, taken
with ipc = the pc it started at; or, where it waits for the host, nothing at all yet (60_exceptions.md R89). -/
def complete (s : State) (m : Micro Unit) : Host.Outcome State Fault Refusal :=
  match m with
  | .done _ t => .next t
  | .raised c t => .next (takeFault c s.pc t)
  | .waiting => .next s

/-! ### Fault codes -/

/-- The numeric code of a cause, and its sub-kind code where it has one (60_exceptions.md R79). -/
def FaultCause.code : FaultCause → Nat × Option Nat
  | .malformedImage _ => (1, none)
  | .invalidOpcode _ => (2, none)
  | .invalidAddress .operand _ => (3, some 0)
  | .invalidAddress .target _ => (3, some 1)
  | .invalidAddress .memory _ => (3, some 2)
  | .invalidAddress .fetch _ => (3, some 3)
  | .stackUnderflow => (4, none)
  | .divideByZero => (5, none)
  | .endOfInput => (6, none)
  | .stackOverflow => (7, none)

/-! ### Memory -/

/-- The byte in cell `k`; a cell that is not listed reads as 0 (10_state.md R22). -/
def Memory.byteAt : Memory → Nat → Byte
  | [], _ => 0
  | c :: m, k => if c.1 = k then c.2 else Memory.byteAt m k

/-- A cell into its place in a memory of rising addresses. -/
def Memory.insertCell (c : Host.Cell) : Memory → Memory
  | [] => [c]
  | d :: m => if c.1 < d.1 then c :: d :: m else d :: Memory.insertCell c m

/-- Cell `k` takes the byte `v`; a cell that takes 0 is no longer listed. -/
def Memory.setByte (m : Memory) (k : Nat) (v : Byte) : Memory :=
  let rest := m.filter (fun c => c.1 != k)
  if v = 0 then rest else Memory.insertCell (k, v) rest

/-- The word at word address `a` (10_state.md R11). -/
def Memory.wordAt (m : Memory) (a : Nat) : Word := wordOfBytes (m.byteAt (2 * a)) (m.byteAt (2 * a + 1))

/-- Word address `a` takes the word `v`. -/
def Memory.setWord (m : Memory) (a : Nat) (v : Word) : Memory :=
  (m.setByte (2 * a) (lowByte v)).setByte (2 * a + 1) (highByte v)

/-- MemRead (20_memory.md R28): the check, then the word. -/
def memRead (addr : Word) (s : State) : Micro Word :=
  if 32767 < addr.toNat then .raised (.invalidAddress .memory addr) s
  else .done (s.mem.wordAt addr.toNat) s

/-- MemWrite (20_memory.md R29): the check, then the write; the word is stored exactly, neither reduced nor re-resolved. -/
def memWrite (addr v : Word) (s : State) : Micro Unit :=
  if 32767 < addr.toNat then .raised (.invalidAddress .memory addr) s
  else .done () (s.setMem (s.mem.setWord addr.toNat v))

/-! ### Fetching -/

/-- What FetchWord does to the state (30_encoding.md R44): the check on pc, then pc + 1. The word it reads is the instruction's next
word, which `fetchInstr` reads from memory at the same pc. -/
def fetchWord (s : State) : Micro Unit :=
  if 32767 < s.pc.toNat then .raised (.invalidAddress .fetch s.pc) s
  else .done () (s.setPc (s.pc + 1))

/-- The word a fetch at address `a` would read. Beyond address 32767 there is no word: the 0 here stands in for an operand word that
`fetchWord` faults on before anything reads it. -/
def State.codeWord (s : State) (a : Nat) : Word := if a ≤ 32767 then s.mem.wordAt a else 0

/-- The eight bytes a step may fetch, from the opcode word's low byte on: the longest instruction has four words (30_encoding.md R37). -/
def State.codeBytes (s : State) : List Byte :=
  bytesOfWords [s.codeWord s.pc.toNat, s.codeWord (s.pc.toNat + 1), s.codeWord (s.pc.toNat + 2), s.codeWord (s.pc.toNat + 3)]

/-- The opcode fetch and the decode of one step (30_encoding.md R44, R45, R42): the instruction at pc, in the state the step starts
in; or the fault of a pc above 32767; or InvalidOpcode, after the opcode word has been fetched and before any operand word is. -/
def fetchInstr (s : State) : Micro Instr :=
  (fetchWord s).bind fun _ t =>
    match decodeWords (s.codeWord s.pc.toNat) (s.codeWord (s.pc.toNat + 1)) (s.codeWord (s.pc.toNat + 2))
        (s.codeWord (s.pc.toNat + 3)) with
    | some i => .done i s
    | none => .raised (.invalidOpcode (s.codeWord s.pc.toNat)) t

/-- Memory with the words `ws` at the addresses from `a` on; what would lie beyond address 32767 is left out. -/
def Memory.setWords (m : Memory) (a : Nat) : List Word → Memory
  | [] => m
  | w :: ws => Memory.setWords (if a ≤ 32767 then m.setWord a w else m) (a + 1) ws

/-- The state in which the next fetch finds the words `ws`, of which the first `len` are an instruction: they are stored at pc and after
it, with pc moved to 0 where the instruction would run past address 32767, and the status is Running. -/
def State.placeWords (s : State) (len : Nat) (ws : List Word) : State :=
  let p := if s.pc.toNat + len ≤ 32768 then s.pc else 0
  ((s.setPc p).setStatus .running).setMem (s.mem.setWords p.toNat ws)

/-! ### The stack -/

/-- Push (10_state.md R16, 60_exceptions.md R86): with a finite capacity and a full stack it raises StackOverflow and pushes nothing. -/
def pushWord (v : Word) (s : State) : Micro Unit :=
  if s.config.stackCapacity = some s.stack.length then .raised .stackOverflow s
  else .done () (s.setStack (s.stack ++ [v]))

/-- Pop (10_state.md R16): StackUnderflow on an empty stack; else the last entry, which is removed. -/
def popWord (s : State) : Micro Word :=
  match s.stack.getLast? with
  | none => .raised .stackUnderflow s
  | some v => .done v (s.setStack s.stack.dropLast)

end Sys2Proof.Machine
end

