-- ==== Sys2Proof/Machine/Flags.lean ====
section
/-! DEFINITION. The block has no flags, condition codes or predicate registers (10_state.md R15). What stands for them: the word a
comparison writes, and the test a conditional jump makes of a word. -/

namespace Sys2Proof.Machine

/-- The word a comparison writes: 1 or 0 (10_state.md R15, 41_alu.md R57, R58). -/
def truthWord (b : Bool) : Word := if b then 1 else 0

/-- The condition of a conditional jump: the word is not 0 (42_control.md R68, R69). -/
def isNonzero (w : Word) : Bool := w != 0

end Sys2Proof.Machine
end

