-- ==== Sys2Proof/Machine/Operands.lean ====
section
/-! DEFINITION. The two operand paths: value resolution (30_encoding.md R39) and write-back (R40). -/

namespace Sys2Proof.Machine

/-- Resolve (30_encoding.md R39), on a V operand word's form. A register's contents are returned as they are. -/
def resolve (o : ValueOperand) (s : State) : Micro Word :=
  match o with
  | .literal v => .done v s
  | .register i => .done (s.reg i) s
  | .invalid w => .raised (.invalidAddress .operand w) s

/-- A V operand in an instruction: its word is fetched and resolved at once, before the next word is fetched
(30_encoding.md R38, R47). -/
def valueOperand (o : ValueOperand) (s : State) : Micro Word :=
  (fetchWord s).bind fun _ s => resolve o s

/-- A T operand in an instruction: its word is fetched and kept unresolved (30_encoding.md R38). -/
def targetOperand (t : TargetOperand) (s : State) : Micro TargetOperand :=
  (fetchWord s).bind fun _ s => .done t s

/-- The value re-resolution of Store, one level (30_encoding.md R40, 92_eei_decisions.md D13): a value 32768..32775 stands for the
contents of the register it refers to. -/
def reResolve (v : Word) (s : State) : Word :=
  match registerReference v with
  | some i => s.reg i
  | none => v

/-- The register a raw target names, if it names one (30_encoding.md R40). -/
def targetRegister : TargetOperand → Option (Fin 8)
  | .direct i => some i
  | .register i => some i
  | .invalid _ => none

/-- The V operands of an instruction, in the order their words are fetched (the table of 30_encoding.md R41). -/
def valueOperands : Instr → List ValueOperand
  | .halt | .ret | .noop | .pop _ | .input _ => []
  | .push a | .jmp a | .call a | .out a => [a]
  | .set _ b | .not _ b | .rmem _ b => [b]
  | .jt a b | .jf a b | .wmem a b => [a, b]
  | .eq _ b c | .gt _ b c | .add _ b c | .mul _ b c | .modulo _ b c | .and _ b c | .or _ b c => [b, c]

/-- The word of a V operand that cannot be resolved (30_encoding.md R39: 32776..65535). -/
def unresolvable : ValueOperand → Option Word
  | .invalid w => some w
  | _ => none

/-- Store (30_encoding.md R40): the value is re-resolved, then the target is checked, then the register is written. -/
def store (t : TargetOperand) (v : Word) (s : State) : Micro Unit :=
  match targetRegister t with
  | some i => .done () (s.setReg i (reResolve v s))
  | none => .raised (.invalidAddress .target t.word) s

end Sys2Proof.Machine
end

