-- ==== Sys2Proof/Machine/Control.lean ====
section
/-! DEFINITION. Control transfer and system: halt, jmp, jt, jf, call, ret, noop (42_control.md). The override of pc is the last
micro-step and never checks the target (R65). -/

namespace Sys2Proof.Machine

/-- halt (42_control.md R66). -/
def execHalt (s : State) : Host.Outcome State Fault Refusal :=
  complete s <|
    (fetchWord s).bind fun _ s =>
    .done () (s.setStatus .halted)

/-- jmp a (42_control.md R67). -/
def execJmp (a : ValueOperand) (s : State) : Host.Outcome State Fault Refusal :=
  complete s <|
    (fetchWord s).bind fun _ s =>
    (valueOperand a s).bind fun t s =>
    .done () (s.setPc t)

/-- The micro-steps of a conditional jump; the target is resolved even when the jump is not taken (42_control.md R68, R69). -/
def conditionalJump (taken : Word → Bool) (a b : ValueOperand) (s : State) : Micro Unit :=
  (fetchWord s).bind fun _ s =>
  (valueOperand a s).bind fun cond s =>
  (valueOperand b s).bind fun t s =>
  .done () (if taken cond then s.setPc t else s)

/-- jt a b (42_control.md R68). -/
def execJt (a b : ValueOperand) (s : State) : Host.Outcome State Fault Refusal :=
  complete s (conditionalJump (fun cond => isNonzero cond) a b s)

/-- jf a b (42_control.md R69). -/
def execJf (a b : ValueOperand) (s : State) : Host.Outcome State Fault Refusal :=
  complete s (conditionalJump (fun cond => !isNonzero cond) a b s)

/-- call a (42_control.md R70): the return address is pc after the operand fetch. -/
def execCall (a : ValueOperand) (s : State) : Host.Outcome State Fault Refusal :=
  complete s <|
    (fetchWord s).bind fun _ s =>
    (valueOperand a s).bind fun t s =>
    (pushWord s.pc s).bind fun _ s =>
    .done () (s.setPc t)

/-- ret (42_control.md R71): the popped word is not resolved. -/
def execRet (s : State) : Host.Outcome State Fault Refusal :=
  complete s <|
    (fetchWord s).bind fun _ s =>
    (popWord s).bind fun t s =>
    .done () (s.setPc t)

/-- noop (42_control.md R72). -/
def execNoop (s : State) : Host.Outcome State Fault Refusal :=
  complete s (fetchWord s)

end Sys2Proof.Machine
end

