-- ==== Sys2Proof/Machine/Alu.lean ====
section
/-! DEFINITION. Comparison and modular arithmetic: eq, gt, add, mul, modulo, and, or, not (41_alu.md). Arithmetic is exact on natural
numbers and reduced mod 32768 at the end (R56). -/

namespace Sys2Proof.Machine

/-- A result reduced mod 32768: bits [14:0] (41_alu.md R56). -/
def reduced (n : Nat) : Word := BitVec.ofNat 16 (n % 32768)

/-- 1 if b == c, else 0, on the full 16 bits (41_alu.md R57). -/
def eqWord (b c : Word) : Word := truthWord (b == c)

/-- 1 if b > c, else 0, unsigned on the full 16 bits (41_alu.md R58). -/
def gtWord (b c : Word) : Word := truthWord (decide (c.toNat < b.toNat))

/-- (b + c) mod 32768 (41_alu.md R59). -/
def addWord (b c : Word) : Word := reduced (b.toNat + c.toNat)

/-- (b * c) mod 32768, the product exact (41_alu.md R60). -/
def mulWord (b c : Word) : Word := reduced (b.toNat * c.toNat)

/-- (b mod c) mod 32768, for a divisor that is not 0 (41_alu.md R61). -/
def moduloWord (b c : Word) : Word := reduced (b.toNat % c.toNat)

/-- (b AND c) mod 32768 (41_alu.md R62, 90_conflicts.md C3). -/
def andWord (b c : Word) : Word := reduced (b &&& c).toNat

/-- (b OR c) mod 32768 (41_alu.md R63, 90_conflicts.md C3). -/
def orWord (b c : Word) : Word := reduced (b ||| c).toNat

/-- The 15-bit complement: NOT b AND 0x7FFF (41_alu.md R64). -/
def notWord (b : Word) : Word := ~~~b &&& 0x7FFF

/-- The micro-steps of an instruction of the shape `a` target, `b` and `c` values, an effect on the two values, Store
(30_encoding.md R47, format F3). -/
def threeOperands (effect : Word → Word → State → Micro Word) (a : TargetOperand) (b c : ValueOperand) (s : State) : Micro Unit :=
  (fetchWord s).bind fun _ s =>
  (targetOperand a s).bind fun a s =>
  (valueOperand b s).bind fun b s =>
  (valueOperand c s).bind fun c s =>
  (effect b c s).bind fun v s =>
  store a v s

/-- The micro-steps of an instruction of the shape `a` target, `b` value, an effect on the value, Store (30_encoding.md R47,
format F2): set, not, rmem. -/
def targetAndValue (effect : Word → State → Micro Word) (a : TargetOperand) (b : ValueOperand) (s : State) : Micro Unit :=
  (fetchWord s).bind fun _ s =>
  (targetOperand a s).bind fun a s =>
  (valueOperand b s).bind fun b s =>
  (effect b s).bind fun v s =>
  store a v s

/-- eq a b c (41_alu.md R57). -/
def execEq (a : TargetOperand) (b c : ValueOperand) (s : State) : Host.Outcome State Fault Refusal :=
  complete s (threeOperands (fun b c s => .done (eqWord b c) s) a b c s)

/-- gt a b c (41_alu.md R58). -/
def execGt (a : TargetOperand) (b c : ValueOperand) (s : State) : Host.Outcome State Fault Refusal :=
  complete s (threeOperands (fun b c s => .done (gtWord b c) s) a b c s)

/-- add a b c (41_alu.md R59). -/
def execAdd (a : TargetOperand) (b c : ValueOperand) (s : State) : Host.Outcome State Fault Refusal :=
  complete s (threeOperands (fun b c s => .done (addWord b c) s) a b c s)

/-- mul a b c (41_alu.md R60). -/
def execMul (a : TargetOperand) (b c : ValueOperand) (s : State) : Host.Outcome State Fault Refusal :=
  complete s (threeOperands (fun b c s => .done (mulWord b c) s) a b c s)

/-- The effect of modulo (41_alu.md R61): a divisor 0 raises DivideByZero (92_eei_decisions.md D3). -/
def moduloEffect (b c : Word) (s : State) : Micro Word :=
  if c = 0 then .raised .divideByZero s else .done (moduloWord b c) s

/-- modulo a b c (41_alu.md R61). -/
def execModulo (a : TargetOperand) (b c : ValueOperand) (s : State) : Host.Outcome State Fault Refusal :=
  complete s (threeOperands moduloEffect a b c s)

/-- and a b c (41_alu.md R62). -/
def execAnd (a : TargetOperand) (b c : ValueOperand) (s : State) : Host.Outcome State Fault Refusal :=
  complete s (threeOperands (fun b c s => .done (andWord b c) s) a b c s)

/-- or a b c (41_alu.md R63). -/
def execOr (a : TargetOperand) (b c : ValueOperand) (s : State) : Host.Outcome State Fault Refusal :=
  complete s (threeOperands (fun b c s => .done (orWord b c) s) a b c s)

/-- not a b (41_alu.md R64). -/
def execNot (a : TargetOperand) (b : ValueOperand) (s : State) : Host.Outcome State Fault Refusal :=
  complete s (targetAndValue (fun b s => .done (notWord b) s) a b s)

end Sys2Proof.Machine
end

