-- ==== Sys2Proof/Machine/DataMovement.lean ====
section
/-! DEFINITION. Data movement: set, push, pop, rmem, wmem (40_data_movement.md). -/

namespace Sys2Proof.Machine

/-- set a b (40_data_movement.md R51). -/
def execSet (a : TargetOperand) (b : ValueOperand) (s : State) : Host.Outcome State Fault Refusal :=
  complete s (targetAndValue (fun b s => .done b s) a b s)

/-- push a (40_data_movement.md R52). -/
def execPush (a : ValueOperand) (s : State) : Host.Outcome State Fault Refusal :=
  complete s <|
    (fetchWord s).bind fun _ s =>
    (valueOperand a s).bind fun v s =>
    pushWord v s

/-- pop a (40_data_movement.md R53): the pop precedes the check of the target. -/
def execPop (a : TargetOperand) (s : State) : Host.Outcome State Fault Refusal :=
  complete s <|
    (fetchWord s).bind fun _ s =>
    (targetOperand a s).bind fun a s =>
    (popWord s).bind fun v s =>
    store a v s

/-- rmem a b (40_data_movement.md R54). -/
def execRmem (a : TargetOperand) (b : ValueOperand) (s : State) : Host.Outcome State Fault Refusal :=
  complete s (targetAndValue memRead a b s)

/-- wmem a b (40_data_movement.md R55). -/
def execWmem (a b : ValueOperand) (s : State) : Host.Outcome State Fault Refusal :=
  complete s <|
    (fetchWord s).bind fun _ s =>
    (valueOperand a s).bind fun addr s =>
    (valueOperand b s).bind fun v s =>
    memWrite addr v s

end Sys2Proof.Machine
end

