-- ==== Sys2Proof/Machine/InputOutput.lean ====
section
/-! DEFINITION. Character input and output: out, input, and the host at the other end (43_io.md). -/

namespace Sys2Proof.Machine

/-- HostOut (43_io.md R73): the host takes the byte at once. -/
def hostOut (ch : Byte) (s : State) : Micro Unit := .done () (s.setOutbuf (s.outbuf ++ [ch]))

/-- Lower (43_io.md R75, 92_eei_decisions.md D7). -/
def lower (ch : Byte) : Byte := if 65 ≤ ch.toNat ∧ ch.toNat ≤ 90 then ch + 32 else ch

/-- The host's own move: it answers, now or ahead of the request (43_io.md R74). Not a step of the engine. -/
def State.hostReplies (s : State) (r : HostAnswer) : State := s.setHostAnswers (s.hostAnswers ++ [r])

/-- TakeInputByte (43_io.md R76): from the queue; where it is empty, from the host's next line, lower-cased; waiting while the host has
not answered. -/
def takeInputByte (s : State) : Micro Byte :=
  match s.inq with
  | ch :: q => .done ch (s.setInq q)
  | [] =>
    match s.hostAnswers with
    | [] => .waiting
    | .eof :: hs => .raised .endOfInput (s.setHostAnswers hs)
    | .line ch bs :: hs => .done (lower ch) ((s.setHostAnswers hs).setInq (bs.map lower))

/-- out a (43_io.md R77): the low 8 bits of the value. -/
def execOut (a : ValueOperand) (s : State) : Host.Outcome State Fault Refusal :=
  complete s <|
    (fetchWord s).bind fun _ s =>
    (valueOperand a s).bind fun v s =>
    hostOut (lowByte v) s

/-- input a (43_io.md R78): the byte, zero-extended to a word. -/
def execInput (a : TargetOperand) (s : State) : Host.Outcome State Fault Refusal :=
  complete s <|
    (fetchWord s).bind fun _ s =>
    (targetOperand a s).bind fun a s =>
    (takeInputByte s).bind fun ch s =>
    store a (ch.setWidth 16) s

end Sys2Proof.Machine
end

