-- ==== Sys2Proof/Machine/Step.lean ====
section
/-! DEFINITION. One step (30_encoding.md R45). -/

namespace Sys2Proof.Machine

/-- Step (30_encoding.md R45): enabled only while Running; the opcode is fetched and decoded, and the instruction runs whole. `exec`
starts, as the instruction does, with pc at the opcode word. -/
def step (s : State) : Host.Outcome State Fault Refusal :=
  match s.status with
  | .halted => .fault .notEnabledHalted
  | .faulted r => .fault (.notEnabledFaulted r)
  | .running =>
    match fetchInstr s with
    | .done i t => exec i t
    | .raised c t => .next (takeFault c s.pc t)
    | .waiting => .next s

/-- `s` with the instruction of the table word `w` (decodeTableWord) where `step` fetches its next instruction: its words at pc and
after it, the bits from `nbits` up 0. -/
def State.withFetchWord (s : State) (nbits w : Nat) : State :=
  s.placeWords (match decodeTableWord nbits w with | some i => i.length | none => 1)
    [tableWordPart nbits w 0, tableWordPart nbits w 1, tableWordPart nbits w 2, tableWordPart nbits w 3]

end Sys2Proof.Machine
end

