-- ==== Sys2Proof/Machine/Image.lean ====
section
/-! DEFINITION. Reset with a program image (70_reset_and_hazards.md R90, R91). -/

namespace Sys2Proof.Machine

/-- The cells of image bytes from cell `k` on: byte 2a is the low byte of word a, byte 2a + 1 its high byte (20_memory.md R25). -/
def imageCells (k : Nat) : List Byte → Memory
  | [] => []
  | b :: bs => if b = 0 then imageCells (k + 1) bs else (k, b) :: imageCells (k + 1) bs

/-- Reset(image) (70_reset_and_hazards.md R90) of a block with the parameters `cfg`: a malformed image (R91) leaves Faulted with all of
memory 0; every word beyond a well-formed image is 0. -/
def State.resetWith (cfg : Config) (image : List Byte) : State :=
  let s : State := { State.reset with config := cfg }
  if image.length % 2 = 1 ∨ 65536 < image.length then takeFault (.malformedImage image.length) 0 s
  else s.setMem (imageCells 0 image)

end Sys2Proof.Machine
end

