-- ==== Sys2Proof/Safety.lean ====
section
/-! DEFINITION. The terms claims use: instructions whose words all lie in memory, waiting, the invariant, safe runs. -/

namespace Sys2Proof.Machine

/-- The `n` words from pc on all lie at addresses 0..32767 (30_encoding.md R44). -/
abbrev State.fits (s : State) (n : Nat) : Prop := s.pc.toNat + n ≤ 32768

/-- The one wait state (60_exceptions.md R89): Running, at an `input` whose queue is empty while the host has not answered. -/
def State.waits (s : State) : Prop :=
  s.status = .running ∧ s.fits 2 ∧ (∃ a, fetchInstr s = .done (.input a) s) ∧ s.inq = [] ∧ s.hostAnswers = []

/-- The law of the register file (10_state.md R21): no register holds a word 32768..32775. -/
abbrev State.registersLawful (s : State) : Prop := ∀ i : Fin 8, registerReference (s.reg i) = none

/-- The stack is no deeper than STACK_CAPACITY (10_state.md R16). -/
abbrev State.stackFits (s : State) : Prop := ∀ n ∈ s.config.stackCapacity, s.stack.length ≤ n

/-- What holds at reset and every step keeps: memory is canonical and inside the 32768 words, the registers obey R21, the stack fits. -/
structure State.Inv (s : State) : Prop where
  mem_wf : s.mem.wf
  registers_lawful : s.registersLawful
  stack_fits : s.stackFits

/-- Instruction `i`, run in `s`, ends in the fault of cause `c` (60_exceptions.md R80). -/
def Raises (i : Instr) (s : State) (c : FaultCause) : Prop := ∃ t r, exec i s = .next t ∧ t.status = .faulted r ∧ r.cause = c

/-- A safe run: however many steps it takes, it is never Faulted (30_encoding.md R46: such a run ends Halted or does not end). -/
def State.safe (s : State) : Prop := ∀ k t, Host.Core.run core k s = .next t → ∀ r, t.status ≠ .faulted r

end Sys2Proof.Machine
end

