-- ==== Sys2Proof/Certificates/Slice0/Obligations.lean ====
section
/-! DEFINITION. The statements for the provers, from the numbered rules of spec/. Throughout, `s.fits n` says that the n words from
pc on lie in memory, `resolve b s = .done v s` that value operand b resolves to v (30_encoding.md R39), `targetRegister a = some i` that
raw target a names register i (R40), `Raises i s c` that instruction i ends in the fault of cause c. -/

open Sys2Proof Sys2Proof.Machine

/-! ### Encoding -/

/-- 30_encoding.md R41: the whole table, row by row: opcode, operand kinds and order, length. -/
def Obligations.OpcodeMapDecodesEveryOpcode : Prop :=
  ∀ a b c : Word,
    let row := fun (op : Word) (i : Instr) (len : Nat) => decodeWords op a b c = some i ∧ i.length = len
    row 0 .halt 1 ∧
    row 1 (.set (.ofWord a) (.ofWord b)) 3 ∧
    row 2 (.push (.ofWord a)) 2 ∧
    row 3 (.pop (.ofWord a)) 2 ∧
    row 4 (.eq (.ofWord a) (.ofWord b) (.ofWord c)) 4 ∧
    row 5 (.gt (.ofWord a) (.ofWord b) (.ofWord c)) 4 ∧
    row 6 (.jmp (.ofWord a)) 2 ∧
    row 7 (.jt (.ofWord a) (.ofWord b)) 3 ∧
    row 8 (.jf (.ofWord a) (.ofWord b)) 3 ∧
    row 9 (.add (.ofWord a) (.ofWord b) (.ofWord c)) 4 ∧
    row 10 (.mul (.ofWord a) (.ofWord b) (.ofWord c)) 4 ∧
    row 11 (.modulo (.ofWord a) (.ofWord b) (.ofWord c)) 4 ∧
    row 12 (.and (.ofWord a) (.ofWord b) (.ofWord c)) 4 ∧
    row 13 (.or (.ofWord a) (.ofWord b) (.ofWord c)) 4 ∧
    row 14 (.not (.ofWord a) (.ofWord b)) 3 ∧
    row 15 (.rmem (.ofWord a) (.ofWord b)) 3 ∧
    row 16 (.wmem (.ofWord a) (.ofWord b)) 3 ∧
    row 17 (.call (.ofWord a)) 2 ∧
    row 18 .ret 1 ∧
    row 19 (.out (.ofWord a)) 2 ∧
    row 20 (.input (.ofWord a)) 2 ∧
    row 21 .noop 1

/-- 95_test_vectors.md L1-9 (the image bytes of its five words) and L3-1 (the add and the jt of its image), and one word per remaining
family written out by hand from 30_encoding.md R37, R41 and 20_memory.md R25: each list of bytes decodes to the instruction it stands for. -/
def Obligations.WordsWrittenOutDecode : Prop :=
  decode [0x01, 0x00, 0x00, 0x80, 0x05, 0x00, 0x13, 0x00, 0x00, 0x80] =
    .ok (.set (.register 0) (.literal 5), [0x13, 0x00, 0x00, 0x80]) ∧
  decode [0x13, 0x00, 0x00, 0x80] = .ok (.out (.register 0), []) ∧
  decode [0x09, 0x00, 0x00, 0x80, 0x00, 0x80, 0xFF, 0x7F] = .ok (.add (.register 0) (.register 0) (.literal 32767), []) ∧
  decode [0x07, 0x00, 0x00, 0x80, 0x03, 0x00, 0x00, 0x00] = .ok (.jt (.register 0) (.literal 3), [0x00, 0x00]) ∧
  decode [0x10, 0x00, 0x64, 0x00, 0x07, 0x80] = .ok (.wmem (.literal 100) (.register 7), []) ∧
  decode [0x14, 0x00, 0x03, 0x00] = .ok (.input (.direct 3), []) ∧
  decode [0x0E, 0x00, 0x08, 0x00, 0x08, 0x80] = .ok (.not (.invalid 8) (.invalid 32776), [])

/-- 30_encoding.md R37, R38, R41, R43: for every well-formed instruction, with every operand at every value its words admit, decoding
its bytes gives it back and leaves the bytes after it. -/
def Obligations.DecodeOfEncodeIsTheInstruction : Prop :=
  ∀ (i : Instr) (rest : List Byte), i.wf = true → decode (encodeBytes i ++ rest) = .ok (i, rest)

/-- 30_encoding.md R37, R43, R50: whatever bytes decode are the bytes of the well-formed instruction they decode to. -/
def Obligations.EncodeOfDecodeIsTheBytes : Prop :=
  ∀ (bs rest : List Byte) (i : Instr), decode bs = .ok (i, rest) → i.wf = true ∧ encodeBytes i ++ rest = bs

/-- 30_encoding.md R42: every opcode word 22..65535 is illegal, whatever follows it; a step that fetches one raises InvalidOpcode(op)
before it fetches any operand word (so also at address 32767), and does not resolve it (so also where it is 32768..32775). -/
def Obligations.IllegalOpcodesRaiseInvalidOpcode : Prop :=
  (∀ op a b c : Word, 22 ≤ op.toNat → decodeWords op a b c = none) ∧
  ∀ s : State, s.status = .running → s.pc.toNat ≤ 32767 → 22 ≤ (s.mem.wordAt s.pc.toNat).toNat →
    ∃ t r, step s = .next t ∧ t.status = .faulted r ∧ r.cause = .invalidOpcode (s.mem.wordAt s.pc.toNat)

/-! ### The step -/

/-- 30_encoding.md R44, R45: when the bytes at pc decode to instruction i, the step of a Running state is i. `exec` starts with pc at
the opcode word and walks past the instruction's own words. -/
def Obligations.StepRunsTheDecodedInstruction : Prop :=
  ∀ (s : State) (i : Instr) (rest : List Byte), s.status = .running → s.pc.toNat ≤ 32767 →
    decode s.codeBytes = .ok (i, rest) → step s = exec i s

/-- 30_encoding.md R37, R44, R45: where the words of a well-formed instruction stand in memory from pc on, the step of a Running state
is that instruction. -/
def Obligations.StepRunsTheEncodedInstruction : Prop :=
  ∀ (s : State) (i : Instr), s.status = .running → i.wf = true → s.fits i.length →
    (∀ (k : Nat) (h : k < (encode i).length), s.mem.wordAt (s.pc.toNat + k) = (encode i)[k]) → step s = exec i s

/-- 30_encoding.md R44 and 60_exceptions.md R82, with the spec's own decisions D5, D10 and D11 (log 13, log 17, log 18): a step at a pc above
32767 faults InvalidAddress(FETCH, pc); a step whose instruction runs past address 32767 faults either on that fetch, at 32768, or on an
invalid operand word it met before; nothing but pc and the status changes. -/
def Obligations.FetchBeyondMemoryFaults : Prop :=
  ∀ s : State, s.status = .running →
    (32767 < s.pc.toNat → step s = .next (takeFault (.invalidAddress .fetch s.pc) s.pc s)) ∧
    ∀ i, fetchInstr s = .done i s → ¬ s.fits i.length →
      ∃ c p, step s = .next (takeFault c s.pc (s.setPc p)) ∧
        (c = .invalidAddress .fetch 32768 ∨
          ∃ k, s.pc.toNat < k ∧ k ≤ 32767 ∧ 32776 ≤ (s.mem.wordAt k).toNat ∧ c = .invalidAddress .operand (s.mem.wordAt k))

/-- 60_exceptions.md R81: Faulted is terminal; no step is enabled in it, nothing leaves it, and a run has no fault after its first. -/
def Obligations.FaultedIsTerminal : Prop :=
  ∀ (s t : State) (r : FaultRecord) (k j : Nat), Host.Core.run core k s = .next t → t.status = .faulted r →
    Host.Core.run core (k + (j + 1)) s = .fault (.notEnabledFaulted r)

/-- 10_state.md R19 and 42_control.md R66: Halted is terminal, and a step reaches it only by the word 0, halt, at pc. -/
def Obligations.HaltedIsTerminalAndOnlyHaltSetsIt : Prop :=
  (∀ (s : State) (k : Nat), s.status = .halted → Host.Core.run core (k + 1) s = .fault .notEnabledHalted) ∧
  ∀ s t : State, step s = .next t → t.status = .halted →
    s.pc.toNat ≤ 32767 ∧ s.mem.wordAt s.pc.toNat = 0 ∧ t = (s.setPc (s.pc + 1)).setStatus .halted

/-- 30_encoding.md R45 and R50 (every opcode word has its behaviour), and the model's own choice for a wait: every Running state has a
next state, and no state is refused. For an input that waits on a host that has not answered, the spec enables no step (R45, 43_io.md
R74, 60_exceptions.md R89); that `step` answers the same state there is the DESIGN CHOICE of log 2. -/
def Obligations.RunningStepAnswersNext : Prop :=
  (∀ s : State, s.status = .running → ∃ t, step s = .next t) ∧ ∀ (s : State) (m : Refusal), step s ≠ .refused m

/-- 10_state.md R20 and 60_exceptions.md R80, with the spec's own decision D10 (log 17): the fault record of a step names the address
of the instruction's opcode word. -/
def Obligations.FaultRecordNamesTheInstruction : Prop :=
  ∀ (s t : State) (r : FaultRecord), step s = .next t → t.status = .faulted r → r.ipc = s.pc

/-! ### Operands -/

/-- 30_encoding.md R39: Resolve, over every operand word. It changes nothing. -/
def Obligations.ResolveFollowsTheWordRanges : Prop :=
  ∀ (w : Word) (s : State),
    (w.toNat ≤ 32767 → resolve (.ofWord w) s = .done w s) ∧
    (∀ i : Fin 8, w.toNat = 32768 + i.val → resolve (.ofWord w) s = .done (s.reg i) s) ∧
    (32776 ≤ w.toNat → resolve (.ofWord w) s = .raised (.invalidAddress .operand w) s)

/-- 30_encoding.md R40, with the spec's own decision D13 (log 19): Store, over every target word and every value; the re-resolution of
a value 32768..32775 happens once. And what writing a register is: that register has the value, every other keeps its own. -/
def Obligations.StoreFollowsTheTargetRanges : Prop :=
  ∀ (t v : Word) (s : State),
    (∀ i : Fin 8, (t.toNat = i.val ∨ t.toNat = 32768 + i.val) →
      (v.toNat < 32768 ∨ 32775 < v.toNat → store (.ofWord t) v s = .done () (s.setReg i v)) ∧
      (∀ j : Fin 8, v.toNat = 32768 + j.val → store (.ofWord t) v s = .done () (s.setReg i (s.reg j)))) ∧
    ((8 ≤ t.toNat ∧ t.toNat ≤ 32767) ∨ 32776 ≤ t.toNat → store (.ofWord t) v s = .raised (.invalidAddress .target t) s) ∧
    ∀ i j : Fin 8, (s.setReg i v).reg j = if i = j then v else s.reg j

/-! ### The instructions: encoding, result, exceptions -/

/-- 42_control.md R66: halt sets the status to Halted, pc past it; no step follows. -/
def Obligations.HaltFollowsItsRule : Prop :=
  encode .halt = [0] ∧ ∀ s : State, s.fits 1 →
    exec .halt s = .next ((s.setPc (s.pc + 1)).setStatus .halted) ∧
    step ((s.setPc (s.pc + 1)).setStatus .halted) = .fault .notEnabledHalted

/-- 40_data_movement.md R51: set, by the order of D11 (log 18). The value written is b, but for a b in 32768..32775, which no reachable
state resolves to (10_state.md R21) and which Store re-resolves. -/
def Obligations.SetFollowsItsRule : Prop :=
  ∀ (a : TargetOperand) (b : ValueOperand) (s : State), s.fits 3 →
    encode (.set a b) = [1, a.word, b.word] ∧
    (∀ w, b = .invalid w → Raises (.set a b) s (.invalidAddress .operand w)) ∧
    ∀ v, resolve b s = .done v s →
      (∀ w, a = .invalid w → Raises (.set a b) s (.invalidAddress .target w)) ∧
      ∀ i, targetRegister a = some i →
        (v.toNat < 32768 ∨ 32775 < v.toNat → exec (.set a b) s = .next ((s.setPc (s.pc + 3)).setReg i v)) ∧
        (∀ j : Fin 8, v.toNat = 32768 + j.val → exec (.set a b) s = .next ((s.setPc (s.pc + 3)).setReg i (s.reg j)))

/-- 40_data_movement.md R52 and 60_exceptions.md R86 (the finite capacity is the spec's own decision D8, log 5): push. That the state a
StackOverflow leaves has pc past both words rests on the spec's own decision D11 (log 18), the ipc of its record on D10 (log 17). -/
def Obligations.PushFollowsItsRule : Prop :=
  ∀ (a : ValueOperand) (s : State), s.fits 2 →
    encode (.push a) = [2, a.word] ∧
    (∀ w, a = .invalid w → Raises (.push a) s (.invalidAddress .operand w)) ∧
    ∀ v, resolve a s = .done v s →
      (s.config.stackCapacity = some s.stack.length →
        exec (.push a) s = .next (takeFault .stackOverflow s.pc (s.setPc (s.pc + 2)))) ∧
      (s.config.stackCapacity ≠ some s.stack.length →
        exec (.push a) s = .next ((s.setPc (s.pc + 2)).setStack (s.stack ++ [v])))

/-- 40_data_movement.md R53, with the spec's own decisions D11 and D12 (log 18, log 19): pop. The pop precedes the check of the target;
a popped word 32768..32775 is re-resolved. -/
def Obligations.PopFollowsItsRule : Prop :=
  ∀ (a : TargetOperand) (s : State), s.fits 2 →
    encode (.pop a) = [3, a.word] ∧
    (s.stack = [] → Raises (.pop a) s .stackUnderflow) ∧
    ∀ st v, s.stack = st ++ [v] →
      (∀ w, a = .invalid w → Raises (.pop a) s (.invalidAddress .target w)) ∧
      ∀ i, targetRegister a = some i →
        (v.toNat < 32768 ∨ 32775 < v.toNat →
          exec (.pop a) s = .next (((s.setPc (s.pc + 2)).setStack st).setReg i v)) ∧
        (∀ j : Fin 8, v.toNat = 32768 + j.val →
          exec (.pop a) s = .next (((s.setPc (s.pc + 2)).setStack st).setReg i (s.reg j)))

/-- 41_alu.md R57: eq compares the full 16 bits and stores 1 or 0. -/
def Obligations.EqFollowsItsRule : Prop :=
  ∀ (a : TargetOperand) (b c : ValueOperand) (s : State), s.fits 4 →
    encode (.eq a b c) = [4, a.word, b.word, c.word] ∧
    (∀ w, b = .invalid w → Raises (.eq a b c) s (.invalidAddress .operand w)) ∧
    ∀ vb, resolve b s = .done vb s →
      (∀ w, c = .invalid w → Raises (.eq a b c) s (.invalidAddress .operand w)) ∧
      ∀ vc, resolve c s = .done vc s →
        (∀ w, a = .invalid w → Raises (.eq a b c) s (.invalidAddress .target w)) ∧
        ∀ i, targetRegister a = some i →
          exec (.eq a b c) s = .next ((s.setPc (s.pc + 4)).setReg i (if vb.toNat = vc.toNat then 1 else 0))

/-- 41_alu.md R58: gt compares the full 16 bits, unsigned and strictly, and stores 1 or 0. -/
def Obligations.GtFollowsItsRule : Prop :=
  ∀ (a : TargetOperand) (b c : ValueOperand) (s : State), s.fits 4 →
    encode (.gt a b c) = [5, a.word, b.word, c.word] ∧
    (∀ w, b = .invalid w → Raises (.gt a b c) s (.invalidAddress .operand w)) ∧
    ∀ vb, resolve b s = .done vb s →
      (∀ w, c = .invalid w → Raises (.gt a b c) s (.invalidAddress .operand w)) ∧
      ∀ vc, resolve c s = .done vc s →
        (∀ w, a = .invalid w → Raises (.gt a b c) s (.invalidAddress .target w)) ∧
        ∀ i, targetRegister a = some i →
          exec (.gt a b c) s = .next ((s.setPc (s.pc + 4)).setReg i (if vc.toNat < vb.toNat then 1 else 0))

/-- 42_control.md R67, with the spec's own decision D5 (log 13): jmp sets pc to any Word without a check; a target above 32767 makes
the next fetch fault. The state that fault leaves and the ipc of its record rest on the spec's own decisions D11 and D10 (log 18,
log 17). -/
def Obligations.JmpFollowsItsRule : Prop :=
  ∀ (a : ValueOperand) (s : State), s.fits 2 →
    encode (.jmp a) = [6, a.word] ∧
    (∀ w, a = .invalid w → Raises (.jmp a) s (.invalidAddress .operand w)) ∧
    ∀ v, resolve a s = .done v s →
      exec (.jmp a) s = .next (s.setPc v) ∧
      (s.status = .running → 32767 < v.toNat → step (s.setPc v) = .next (takeFault (.invalidAddress .fetch v) v (s.setPc v)))

/-- 42_control.md R68: jt jumps where a is not 0. Its inference from R38 and R47, that b is resolved even where the jump is not taken,
is the spec's own. -/
def Obligations.JtFollowsItsRule : Prop :=
  ∀ (a b : ValueOperand) (s : State), s.fits 3 →
    encode (.jt a b) = [7, a.word, b.word] ∧
    (∀ w, a = .invalid w → Raises (.jt a b) s (.invalidAddress .operand w)) ∧
    ∀ va, resolve a s = .done va s →
      (∀ w, b = .invalid w → Raises (.jt a b) s (.invalidAddress .operand w)) ∧
      ∀ vb, resolve b s = .done vb s →
        exec (.jt a b) s = .next (s.setPc (if va = 0 then s.pc + 3 else vb))

/-- 42_control.md R69: jf jumps where a is 0. As for jt, that b is always resolved is the spec's own inference. -/
def Obligations.JfFollowsItsRule : Prop :=
  ∀ (a b : ValueOperand) (s : State), s.fits 3 →
    encode (.jf a b) = [8, a.word, b.word] ∧
    (∀ w, a = .invalid w → Raises (.jf a b) s (.invalidAddress .operand w)) ∧
    ∀ va, resolve a s = .done va s →
      (∀ w, b = .invalid w → Raises (.jf a b) s (.invalidAddress .operand w)) ∧
      ∀ vb, resolve b s = .done vb s →
        exec (.jf a b) s = .next (s.setPc (if va = 0 then vb else s.pc + 3))

/-- 41_alu.md R59: add stores (b + c) mod 32768, the sum exact. -/
def Obligations.AddFollowsItsRule : Prop :=
  ∀ (a : TargetOperand) (b c : ValueOperand) (s : State), s.fits 4 →
    encode (.add a b c) = [9, a.word, b.word, c.word] ∧
    (∀ w, b = .invalid w → Raises (.add a b c) s (.invalidAddress .operand w)) ∧
    ∀ vb, resolve b s = .done vb s →
      (∀ w, c = .invalid w → Raises (.add a b c) s (.invalidAddress .operand w)) ∧
      ∀ vc, resolve c s = .done vc s →
        (∀ w, a = .invalid w → Raises (.add a b c) s (.invalidAddress .target w)) ∧
        ∀ i, targetRegister a = some i →
          exec (.add a b c) s =
            .next ((s.setPc (s.pc + 4)).setReg i (BitVec.ofNat 16 ((vb.toNat + vc.toNat) % 32768)))

/-- 41_alu.md R60: mul stores (b * c) mod 32768, the product exact. -/
def Obligations.MulFollowsItsRule : Prop :=
  ∀ (a : TargetOperand) (b c : ValueOperand) (s : State), s.fits 4 →
    encode (.mul a b c) = [10, a.word, b.word, c.word] ∧
    (∀ w, b = .invalid w → Raises (.mul a b c) s (.invalidAddress .operand w)) ∧
    ∀ vb, resolve b s = .done vb s →
      (∀ w, c = .invalid w → Raises (.mul a b c) s (.invalidAddress .operand w)) ∧
      ∀ vc, resolve c s = .done vc s →
        (∀ w, a = .invalid w → Raises (.mul a b c) s (.invalidAddress .target w)) ∧
        ∀ i, targetRegister a = some i →
          exec (.mul a b c) s =
            .next ((s.setPc (s.pc + 4)).setReg i (BitVec.ofNat 16 (vb.toNat * vc.toNat % 32768)))

/-- 41_alu.md R61, with the spec's own decisions D3 and D11 (log 11, log 18): modulo stores the unsigned remainder mod 32768; a divisor
0 raises DivideByZero, whatever the target. -/
def Obligations.ModuloFollowsItsRule : Prop :=
  ∀ (a : TargetOperand) (b c : ValueOperand) (s : State), s.fits 4 →
    encode (.modulo a b c) = [11, a.word, b.word, c.word] ∧
    (∀ w, b = .invalid w → Raises (.modulo a b c) s (.invalidAddress .operand w)) ∧
    ∀ vb, resolve b s = .done vb s →
      (∀ w, c = .invalid w → Raises (.modulo a b c) s (.invalidAddress .operand w)) ∧
      ∀ vc, resolve c s = .done vc s →
        (vc = 0 → Raises (.modulo a b c) s .divideByZero) ∧
        (vc ≠ 0 →
          (∀ w, a = .invalid w → Raises (.modulo a b c) s (.invalidAddress .target w)) ∧
          ∀ i, targetRegister a = some i →
            exec (.modulo a b c) s =
              .next ((s.setPc (s.pc + 4)).setReg i (BitVec.ofNat 16 (vb.toNat % vc.toNat % 32768))))

/-- 41_alu.md R62: and stores (b AND c) mod 32768. -/
def Obligations.AndFollowsItsRule : Prop :=
  ∀ (a : TargetOperand) (b c : ValueOperand) (s : State), s.fits 4 →
    encode (.and a b c) = [12, a.word, b.word, c.word] ∧
    (∀ w, b = .invalid w → Raises (.and a b c) s (.invalidAddress .operand w)) ∧
    ∀ vb, resolve b s = .done vb s →
      (∀ w, c = .invalid w → Raises (.and a b c) s (.invalidAddress .operand w)) ∧
      ∀ vc, resolve c s = .done vc s →
        (∀ w, a = .invalid w → Raises (.and a b c) s (.invalidAddress .target w)) ∧
        ∀ i, targetRegister a = some i →
          exec (.and a b c) s =
            .next ((s.setPc (s.pc + 4)).setReg i (BitVec.ofNat 16 ((vb.toNat &&& vc.toNat) % 32768)))

/-- 41_alu.md R63: or stores (b OR c) mod 32768. -/
def Obligations.OrFollowsItsRule : Prop :=
  ∀ (a : TargetOperand) (b c : ValueOperand) (s : State), s.fits 4 →
    encode (.or a b c) = [13, a.word, b.word, c.word] ∧
    (∀ w, b = .invalid w → Raises (.or a b c) s (.invalidAddress .operand w)) ∧
    ∀ vb, resolve b s = .done vb s →
      (∀ w, c = .invalid w → Raises (.or a b c) s (.invalidAddress .operand w)) ∧
      ∀ vc, resolve c s = .done vc s →
        (∀ w, a = .invalid w → Raises (.or a b c) s (.invalidAddress .target w)) ∧
        ∀ i, targetRegister a = some i →
          exec (.or a b c) s =
            .next ((s.setPc (s.pc + 4)).setReg i (BitVec.ofNat 16 ((vb.toNat ||| vc.toNat) % 32768)))

/-- 41_alu.md R64: not stores 32767 - (b mod 32768), which is NOT b AND 0x7FFF. On values 0..32767 it is its own inverse. -/
def Obligations.NotFollowsItsRule : Prop :=
  (∀ (a : TargetOperand) (b : ValueOperand) (s : State), s.fits 3 →
    encode (.not a b) = [14, a.word, b.word] ∧
    (∀ w, b = .invalid w → Raises (.not a b) s (.invalidAddress .operand w)) ∧
    ∀ vb, resolve b s = .done vb s →
      (∀ w, a = .invalid w → Raises (.not a b) s (.invalidAddress .target w)) ∧
      ∀ i, targetRegister a = some i →
        exec (.not a b) s = .next ((s.setPc (s.pc + 3)).setReg i (BitVec.ofNat 16 (32767 - vb.toNat % 32768))) ∧
        exec (.not a b) s = .next ((s.setPc (s.pc + 3)).setReg i (~~~vb &&& 0x7FFF))) ∧
  ∀ v : Word, v.toNat ≤ 32767 → notWord (notWord v) = v

/-- 40_data_movement.md R54, with the spec's own decisions D4, D11 and D12 (log 12, log 18, log 19): rmem. A memory word 32768..32775 is
re-resolved; the address is checked before the target. -/
def Obligations.RmemFollowsItsRule : Prop :=
  ∀ (a : TargetOperand) (b : ValueOperand) (s : State), s.fits 3 →
    encode (.rmem a b) = [15, a.word, b.word] ∧
    (∀ w, b = .invalid w → Raises (.rmem a b) s (.invalidAddress .operand w)) ∧
    ∀ addr, resolve b s = .done addr s →
      (32767 < addr.toNat → Raises (.rmem a b) s (.invalidAddress .memory addr)) ∧
      (addr.toNat ≤ 32767 →
        (∀ w, a = .invalid w → Raises (.rmem a b) s (.invalidAddress .target w)) ∧
        ∀ i, targetRegister a = some i → ∀ v, v = s.mem.wordAt addr.toNat →
          (v.toNat < 32768 ∨ 32775 < v.toNat → exec (.rmem a b) s = .next ((s.setPc (s.pc + 3)).setReg i v)) ∧
          (∀ j : Fin 8, v.toNat = 32768 + j.val → exec (.rmem a b) s = .next ((s.setPc (s.pc + 3)).setReg i (s.reg j))))

/-- 40_data_movement.md R55 and 20_memory.md R29, with the spec's own decision D4 (log 12): wmem stores the word exactly at the
resolved address, and every other word of memory is as before. -/
def Obligations.WmemFollowsItsRule : Prop :=
  ∀ (a b : ValueOperand) (s : State), s.fits 3 →
    encode (.wmem a b) = [16, a.word, b.word] ∧
    (∀ w, a = .invalid w → Raises (.wmem a b) s (.invalidAddress .operand w)) ∧
    ∀ addr, resolve a s = .done addr s →
      (∀ w, b = .invalid w → Raises (.wmem a b) s (.invalidAddress .operand w)) ∧
      ∀ v, resolve b s = .done v s →
        (32767 < addr.toNat → Raises (.wmem a b) s (.invalidAddress .memory addr)) ∧
        (addr.toNat ≤ 32767 → ∃ m, exec (.wmem a b) s = .next ((s.setPc (s.pc + 3)).setMem m) ∧
          m.wordAt addr.toNat = v ∧ ∀ k, k ≠ addr.toNat → m.wordAt k = s.mem.wordAt k)

/-- 42_control.md R70 and 60_exceptions.md R86 (the finite capacity is the spec's own decision D8, log 5): call pushes the address of
the next instruction and jumps. That the state its faults, OPERAND and StackOverflow, leave has pc past both words rests on the spec's own
decision D11 (log 18), the ipc of their records on D10 (log 17). -/
def Obligations.CallFollowsItsRule : Prop :=
  ∀ (a : ValueOperand) (s : State), s.fits 2 →
    encode (.call a) = [17, a.word] ∧
    (∀ w, a = .invalid w → exec (.call a) s = .next (takeFault (.invalidAddress .operand w) s.pc (s.setPc (s.pc + 2)))) ∧
    ∀ v, resolve a s = .done v s →
      (s.config.stackCapacity = some s.stack.length →
        exec (.call a) s = .next (takeFault .stackOverflow s.pc (s.setPc (s.pc + 2)))) ∧
      (s.config.stackCapacity ≠ some s.stack.length →
        exec (.call a) s = .next ((s.setPc v).setStack (s.stack ++ [s.pc + 2])))

/-- 42_control.md R71: ret pops a word, whatever it is, and jumps to it unresolved (the spec's own inference from R39). -/
def Obligations.RetFollowsItsRule : Prop :=
  encode .ret = [18] ∧ ∀ s : State, s.fits 1 →
    (s.stack = [] → Raises .ret s .stackUnderflow) ∧
    ∀ st v, s.stack = st ++ [v] → exec .ret s = .next ((s.setPc v).setStack st)

/-- 43_io.md R77: out hands the host bits [7:0] of the value; a fault of its operand, or of the fetch of its operand word, comes before
anything is emitted. -/
def Obligations.OutFollowsItsRule : Prop :=
  ∀ (a : ValueOperand) (s : State),
    encode (.out a) = [19, a.word] ∧
    (s.pc.toNat = 32767 → ∃ t r, exec (.out a) s = .next t ∧ t.status = .faulted r ∧
      r.cause = .invalidAddress .fetch 32768 ∧ t.outbuf = s.outbuf) ∧
    (s.fits 2 →
      (∀ w, a = .invalid w → ∃ t r, exec (.out a) s = .next t ∧ t.status = .faulted r ∧
        r.cause = .invalidAddress .operand w ∧ t.outbuf = s.outbuf) ∧
      ∀ v, resolve a s = .done v s →
        exec (.out a) s = .next ((s.setPc (s.pc + 2)).setOutbuf (s.outbuf ++ [BitVec.ofNat 8 (v.toNat % 256)])))

/-- 43_io.md R75, R76, R78, with the spec's own decisions D6, D7 and D11 (log 14, log 15, log 18): input takes the head of the queue;
where the queue is empty, the host's next line fills it, lower-cased; the end of input faults; a bad target is reported last. -/
def Obligations.InputFollowsItsRule : Prop :=
  (∀ (a : TargetOperand) (s : State), s.fits 2 →
    encode (.input a) = [20, a.word] ∧
    (∀ hs, s.inq = [] → s.hostAnswers = .eof :: hs → Raises (.input a) s .endOfInput) ∧
    (∀ w, a = .invalid w → s.inq ≠ [] ∨ (∃ ch bs hs, s.hostAnswers = .line ch bs :: hs) →
      Raises (.input a) s (.invalidAddress .target w)) ∧
    ∀ i, targetRegister a = some i →
      (∀ ch q, s.inq = ch :: q →
        exec (.input a) s = .next (((s.setPc (s.pc + 2)).setInq q).setReg i (BitVec.ofNat 16 ch.toNat))) ∧
      (∀ ch bs hs, s.inq = [] → s.hostAnswers = .line ch bs :: hs →
        exec (.input a) s = .next ((((s.setPc (s.pc + 2)).setHostAnswers hs).setInq (bs.map lower)).setReg i
          (BitVec.ofNat 16 (lower ch).toNat)))) ∧
  ∀ ch : Byte, (lower ch).toNat = if 65 ≤ ch.toNat ∧ ch.toNat ≤ 90 then ch.toNat + 32 else ch.toNat

/-- 43_io.md R74, R76 and 60_exceptions.md R89, where that a waiting step is a next state that changes nothing is the model's choice
(log 2): an input whose queue is empty waits while the host has not answered, for ever if it never does, and completes once it has. -/
def Obligations.InputWaitsForTheHost : Prop :=
  (∀ (a : TargetOperand) (s : State), s.fits 2 → s.inq = [] → s.hostAnswers = [] →
    exec (.input a) s = .next s ∧
    ∀ i ch bs, targetRegister a = some i →
      exec (.input a) (s.hostReplies (.line ch bs)) =
        .next (((s.setPc (s.pc + 2)).setInq (bs.map lower)).setReg i (BitVec.ofNat 16 (lower ch).toNat))) ∧
  ∀ (s : State) (k : Nat), s.waits → Host.Core.run core k s = .next s

/-- 42_control.md R72: noop has no effect but that pc passes it. -/
def Obligations.NoopFollowsItsRule : Prop :=
  encode .noop = [21] ∧ ∀ s : State, s.fits 1 → exec .noop s = .next (s.setPc (s.pc + 1))

/-- 60_exceptions.md R82 and R83, with the spec's own decisions D10 and D11 (log 17, log 18): of every instruction, the first of its
value operands, in the order a, b, c, whose word is 32776..65535 is the fault reported, before any effect: nothing but pc and the status
changes. -/
def Obligations.FirstUnresolvableOperandIsReported : Prop :=
  ∀ (i : Instr) (s : State) (w : Word) (ws : List Word), s.fits i.length →
    (valueOperands i).filterMap unresolvable = w :: ws →
    ∃ p, exec i s = .next (takeFault (.invalidAddress .operand w) s.pc (s.setPc p))

/-! ### Frames

Where a frame covers a fault, the state the fault leaves rests on the spec's own decision D11 (log 18), the ipc of its record on D10
(log 17). -/

/-- 10_state.md R11, R12, R16 and the rules of 41_alu.md and 40_data_movement.md R51, R54: set, eq, gt, add, mul, modulo, and, or, not
and rmem change no register but the one their target names, and nothing else but pc and, where they fault, the status. -/
def Obligations.RegisterResultFrame : Prop :=
  ∀ (a : TargetOperand) (b c : ValueOperand) (s t : State) (i : Instr),
    i ∈ [Instr.set a b, .eq a b c, .gt a b c, .add a b c, .mul a b c, .modulo a b c, .and a b c, .or a b c, .not a b, .rmem a b] →
    exec i s = .next t →
      (∀ j, targetRegister a ≠ some j → t.reg j = s.reg j) ∧ (∀ k, t.mem.byteAt k = s.mem.byteAt k) ∧ t.mem = s.mem ∧
      t.stack = s.stack ∧ t.inq = s.inq ∧ t.outbuf = s.outbuf ∧ t.hostAnswers = s.hostAnswers ∧ t.config = s.config ∧
      (t.status = s.status ∨ ∃ f, t.status = .faulted ⟨f, s.pc⟩)

/-- 40_data_movement.md R53: pop changes no register but the one its target names, and of the rest only the stack, pc and, where it
faults, the status. -/
def Obligations.PopFrame : Prop :=
  ∀ (a : TargetOperand) (s t : State), exec (.pop a) s = .next t →
    (∀ j, targetRegister a ≠ some j → t.reg j = s.reg j) ∧ t.mem = s.mem ∧ (t.stack = s.stack ∨ t.stack = s.stack.dropLast) ∧
    t.inq = s.inq ∧ t.outbuf = s.outbuf ∧ t.hostAnswers = s.hostAnswers ∧ t.config = s.config ∧
    (t.status = s.status ∨ ∃ f, t.status = .faulted ⟨f, s.pc⟩)

/-- 43_io.md R76, R78: input changes no register but the one its target names, and of the rest only the queue, the host's answers (at
most the oldest is taken, and only where the queue is empty), pc and, where it faults, the status. -/
def Obligations.InputFrame : Prop :=
  ∀ (a : TargetOperand) (s t : State), exec (.input a) s = .next t →
    (∀ j, targetRegister a ≠ some j → t.reg j = s.reg j) ∧ t.mem = s.mem ∧ t.stack = s.stack ∧ t.outbuf = s.outbuf ∧
    t.config = s.config ∧
    (t.hostAnswers = s.hostAnswers ∨ (s.inq = [] ∧ ∃ r, s.hostAnswers = r :: t.hostAnswers)) ∧
    (s.inq ≠ [] → t.inq = s.inq ∨ t.inq = s.inq.tail) ∧
    (t.status = s.status ∨ ∃ f, t.status = .faulted ⟨f, s.pc⟩)

/-- 40_data_movement.md R55, 20_memory.md R29: wmem changes no byte of memory but the two of the word at the address its operand a
resolves to, none where that address is above 32767 or an operand does not resolve, and of the rest only pc and, where it faults, the
status. -/
def Obligations.WmemFrame : Prop :=
  ∀ (a b : ValueOperand) (s t : State), exec (.wmem a b) s = .next t →
    (∀ addr, resolve a s = .done addr s →
      ∀ k, k ≠ 2 * addr.toNat → k ≠ 2 * addr.toNat + 1 → t.mem.byteAt k = s.mem.byteAt k) ∧
    (∀ addr, resolve a s = .done addr s → 32767 < addr.toNat → t.mem = s.mem) ∧
    (∀ w, a = .invalid w ∨ b = .invalid w → t.mem = s.mem) ∧
    (∀ j, t.reg j = s.reg j) ∧ t.stack = s.stack ∧ t.inq = s.inq ∧ t.outbuf = s.outbuf ∧ t.hostAnswers = s.hostAnswers ∧
    t.config = s.config ∧ (t.status = s.status ∨ ∃ f, t.status = .faulted ⟨f, s.pc⟩)

/-- 42_control.md R66 to R69, R72 and 43_io.md R77: halt, jmp, jt, jf, noop and out change no register, no memory, no stack and no
queue; halt alone sets the status to Halted; out alone adds to the output. -/
def Obligations.ControlAndOutFrame : Prop :=
  ∀ (a b : ValueOperand) (s t : State) (i : Instr), i ∈ [Instr.halt, .jmp a, .jt a b, .jf a b, .noop, .out a] →
    exec i s = .next t →
      (∀ j, t.reg j = s.reg j) ∧ t.mem = s.mem ∧ t.stack = s.stack ∧ t.inq = s.inq ∧ t.hostAnswers = s.hostAnswers ∧
      t.config = s.config ∧ (i ≠ .out a → t.outbuf = s.outbuf) ∧
      (t.status = s.status ∨ (i = .halt ∧ t.status = .halted) ∨ ∃ f, t.status = .faulted ⟨f, s.pc⟩)

/-- 40_data_movement.md R52, 42_control.md R70, R71: push, call and ret change no register, no memory and no queue, and of the stack at
most its top: one entry more, or one less. -/
def Obligations.StackFrame : Prop :=
  ∀ (a : ValueOperand) (s t : State) (i : Instr), i ∈ [Instr.push a, .call a, .ret] → exec i s = .next t →
    (∀ j, t.reg j = s.reg j) ∧ t.mem = s.mem ∧ t.inq = s.inq ∧ t.outbuf = s.outbuf ∧ t.hostAnswers = s.hostAnswers ∧
    t.config = s.config ∧
    (t.stack = s.stack ∨ (i ≠ .ret ∧ ∃ v, t.stack = s.stack ++ [v]) ∨ (i = .ret ∧ ∃ v, s.stack = t.stack ++ [v])) ∧
    (t.status = s.status ∨ ∃ f, t.status = .faulted ⟨f, s.pc⟩)

/-! ### Reset -/

/-- 10_state.md R22 and 70_reset_and_hazards.md R90 with the empty image; that the rest of memory is 0 and that stack and queue are
empty are the spec's own decisions D2 and D9 (log 7, log 16); the last two fields are the model's own (log 1, log 5). -/
def Obligations.ResetStateIsTheSpecs : Prop :=
  (∀ a, State.reset.mem.wordAt a = 0) ∧ (∀ i, State.reset.reg i = 0) ∧ State.reset.pc = 0 ∧ State.reset.stack = [] ∧
  State.reset.inq = [] ∧ State.reset.outbuf = [] ∧ State.reset.status = .running ∧ State.reset.hostAnswers = [] ∧
  State.reset.config.stackCapacity = none ∧ State.resetWith .default [] = State.reset

/-- 20_memory.md R25: word a of a well-formed image is its bytes 2a and 2a + 1, low byte first. -/
def Obligations.ImageWordsAreLittleEndian : Prop :=
  ∀ (cfg : Config) (image : List Byte) (a : Nat) (h : 2 * a + 1 < image.length), image.length % 2 = 0 → image.length ≤ 65536 →
    ((State.resetWith cfg image).mem.wordAt a).toNat = image[2 * a].toNat + 256 * image[2 * a + 1].toNat

/-- 70_reset_and_hazards.md R90, R91, with the spec's own decisions D2, D9, D10 and D19 (log 7, log 16, log 17, log 24): an image of
odd length or above 65536 bytes leaves Faulted and memory 0, and no step follows; any other leaves Running, memory 0 beyond it, the rest as reset. -/
def Obligations.ImageIsValidatedAtReset : Prop :=
  ∀ (cfg : Config) (image : List Byte) (s : State), s = State.resetWith cfg image →
    (image.length % 2 = 1 ∨ 65536 < image.length →
      s.status = .faulted ⟨.malformedImage image.length, 0⟩ ∧ (∀ a, s.mem.wordAt a = 0) ∧
      step s = .fault (.notEnabledFaulted ⟨.malformedImage image.length, 0⟩)) ∧
    (image.length % 2 = 0 ∧ image.length ≤ 65536 →
      s.status = .running ∧ ∀ a, image.length ≤ 2 * a → s.mem.wordAt a = 0) ∧
    (∀ i, s.reg i = 0) ∧ s.pc = 0 ∧ s.stack = [] ∧ s.inq = [] ∧ s.outbuf = []

/-! ### Whole-machine rules -/

/-- 10_state.md R11, R16, R21 (whose proof is the spec's own inference): memory stays canonical and inside the 32768 words, no register
comes to hold a word 32768..32775, and the stack does not outgrow STACK_CAPACITY. Of every state that has this, each next state has it. -/
def Obligations.StepKeepsTheInvariant : Prop :=
  ∀ s t : State, s.Inv → step s = .next t → t.Inv

/-- 10_state.md R21, R22: the invariant holds at reset. -/
def Obligations.ResetHasTheInvariant : Prop := State.reset.Inv

/-- 10_state.md R21, R22 and 70_reset_and_hazards.md R90: the invariant holds after reset with any image, well-formed or not. -/
def Obligations.LoadedImageHasTheInvariant : Prop :=
  ∀ (cfg : Config) (image : List Byte), (State.resetWith cfg image).Inv

/-- 43_io.md R73, 10_state.md R23: no instruction reads the output, so what was emitted before changes nothing that comes after. -/
def Obligations.OutputHistoryDoesNotInfluence : Prop :=
  ∀ (s t : State) (o : List Byte), step s = .next t → step (s.setOutbuf (o ++ s.outbuf)) = .next (t.setOutbuf (o ++ t.outbuf))

/-- 10_state.md R11: memory is written only by wmem (the spec's own inference from the table of effects). -/
def Obligations.MemoryChangesOnlyAtWmem : Prop :=
  ∀ s t : State, step s = .next t → t.mem ≠ s.mem → s.mem.wordAt s.pc.toNat = 16 ∧ ∃ a b, fetchInstr s = .done (.wmem a b) s

/-- 43_io.md R73: the output never loses a byte, and gains one only at out. -/
def Obligations.OutputGrowsOnlyAtOut : Prop :=
  ∀ s t : State, step s = .next t →
    t.outbuf = s.outbuf ∨ (s.mem.wordAt s.pc.toNat = 19 ∧ ∃ ch, t.outbuf = s.outbuf ++ [ch])

/-- 10_state.md R12: a step writes at most one register, and none but the twelve instructions with a raw target writes any. -/
def Obligations.OneRegisterWrittenPerStep : Prop :=
  ∀ s t : State, step s = .next t →
    ∃ i, (∀ j, j ≠ i → t.reg j = s.reg j) ∧
      (t.reg i ≠ s.reg i → (s.mem.wordAt s.pc.toNat).toNat ∈ [1, 3, 4, 5, 9, 10, 11, 12, 13, 14, 15, 20])

/-- 43_io.md R74, R76: the host is asked only by input, and only where the queue is empty; one answer is taken at a time. -/
def Obligations.HostIsAskedOnlyByInputOnAnEmptyQueue : Prop :=
  ∀ s t : State, step s = .next t → t.hostAnswers ≠ s.hostAnswers →
    s.mem.wordAt s.pc.toNat = 20 ∧ s.inq = [] ∧ ∃ r, s.hostAnswers = r :: t.hostAnswers

/-- 10_state.md R14: after an instruction that neither faults, nor waits, nor is a jump, call or ret, pc is past its words. -/
def Obligations.ProgramCounterPassesTheInstruction : Prop :=
  ∀ (s t : State) (i : Instr), step s = .next t → fetchInstr s = .done i s → ¬ s.waits → (∀ r, t.status ≠ .faulted r) →
    match i with
    | .jmp _ | .jt _ _ | .jf _ _ | .call _ | .ret => True
    | _ => t.pc.toNat = s.pc.toNat + i.length

/-- 20_memory.md R35 (the spec's own inference from R32): the word wmem stored is the word every later fetch of its address reads,
opcode or operand word. First over every well-formed instruction: where the words at pc, with v at the address stored to and the words
before the wmem elsewhere, are those of i, the step is i. Then what a step at the stored word itself does for halt, noop and an illegal
word; the state that InvalidOpcode leaves and the ipc of its record rest on the spec's own decisions D11 and D10 (log 18, log 17). -/
def Obligations.FetchSeesTheStoredWord : Prop :=
  ∀ (a b : ValueOperand) (s t u : State) (addr v : Word), s.fits 3 → resolve a s = .done addr s → resolve b s = .done v s →
    addr.toNat ≤ 32767 → exec (.wmem a b) s = .next t → u.mem = t.mem → u.status = .running →
      (∀ i : Instr, i.wf = true → u.fits i.length →
        (∀ (k : Nat) (h : k < (encode i).length),
          (if u.pc.toNat + k = addr.toNat then v else s.mem.wordAt (u.pc.toNat + k)) = (encode i)[k]) →
        step u = exec i u) ∧
      (u.pc = addr →
        (v = 0 → step u = .next ((u.setPc (addr + 1)).setStatus .halted)) ∧
        (v = 21 → step u = .next (u.setPc (addr + 1))) ∧
        (22 ≤ v.toNat → step u = .next (takeFault (.invalidOpcode v) addr (u.setPc (addr + 1)))))

/-- 42_control.md R65 (the spec's own inference from R70 and R71): a call that does not fault, followed at any pc by a ret with the
stack as the call left it, comes back to the instruction after the call, with the stack as before it. -/
def Obligations.CallThenRetReturns : Prop :=
  ∀ (a : ValueOperand) (s t u : State), s.fits 2 → exec (.call a) s = .next t → (∀ r, t.status ≠ .faulted r) →
    u.stack = t.stack → u.fits 1 → exec .ret u = .next ((u.setPc (s.pc + 2)).setStack s.stack)

/-- 40_data_movement.md R53 (the source's own property of push and pop): push of a register and pop into it, where it obeys the law of
10_state.md R21 and both fit, restore the register and the depth of the stack: nothing changes but pc. -/
def Obligations.PushThenPopRestores : Prop :=
  ∀ (i : Fin 8) (s t : State), s.fits 4 → registerReference (s.reg i) = none → (∀ r, s.status ≠ .faulted r) →
    exec (.push (.register i)) s = .next t → (∀ r, t.status ≠ .faulted r) → exec (.pop (.register i)) t = .next (s.setPc (s.pc + 4))

/-- 42_control.md R67 and 30_encoding.md R46 (the spec's corner case): a jmp to its own address never ends, and never faults. -/
def Obligations.JmpToItselfRunsForever : Prop :=
  ∀ s : State, s.status = .running → s.fits 2 → s.mem.wordAt s.pc.toNat = 6 →
    resolve (.ofWord (s.mem.wordAt (s.pc.toNat + 1))) s = .done s.pc s →
    (∀ k, Host.Core.run core k s = .next s) ∧ s.safe
end

