-- ==== Sys2Proof/Laws/Decode.lean ====
section
/-! SUPPORT. Bytes and words, operand words and operand forms, the shape of an encoding. -/

namespace Sys2Proof

/-! ### Bytes and words -/

theorem lowByte_toNat (w : Word) : (lowByte w).toNat = w.toNat % 256 := by simp [lowByte]

theorem highByte_toNat (w : Word) : (highByte w).toNat = w.toNat / 256 := by
  have := w.isLt
  simp only [highByte, BitVec.toNat_setWidth, BitVec.toNat_ushiftRight, Nat.shiftRight_eq_div_pow]
  omega

theorem wordOfBytes_toNat (lo hi : Byte) : (wordOfBytes lo hi).toNat = lo.toNat + 256 * hi.toNat := by
  have := lo.isLt
  have := hi.isLt
  simp only [wordOfBytes, BitVec.toNat_ofNat]
  omega

@[simp] theorem wordOfBytes_low_high (w : Word) : wordOfBytes (lowByte w) (highByte w) = w := by
  apply BitVec.eq_of_toNat_eq
  rw [wordOfBytes_toNat, lowByte_toNat, highByte_toNat]
  omega

@[simp] theorem lowByte_wordOfBytes (lo hi : Byte) : lowByte (wordOfBytes lo hi) = lo := by
  apply BitVec.eq_of_toNat_eq
  have := lo.isLt
  rw [lowByte_toNat, wordOfBytes_toNat]
  omega

@[simp] theorem highByte_wordOfBytes (lo hi : Byte) : highByte (wordOfBytes lo hi) = hi := by
  apply BitVec.eq_of_toNat_eq
  have := lo.isLt
  rw [highByte_toNat, wordOfBytes_toNat]
  omega

@[simp] theorem bytesOfWords_length (ws : List Word) : (bytesOfWords ws).length = 2 * ws.length := by
  induction ws with
  | nil => rfl
  | cons w ws ih => simp only [bytesOfWords, List.length_cons, ih]; omega

/-! ### Register references -/

theorem referenceWord_toNat (i : Fin 8) : (referenceWord i).toNat = 32768 + i.val := by
  have := i.isLt
  simp only [referenceWord, BitVec.toNat_ofNat]
  omega

@[simp] theorem registerReference_referenceWord (i : Fin 8) : registerReference (referenceWord i) = some i := by
  have h := referenceWord_toNat i
  have := i.isLt
  have hr : 32768 ≤ (referenceWord i).toNat ∧ (referenceWord i).toNat ≤ 32775 := by omega
  simp only [registerReference, hr, and_self, dite_true, Option.some.injEq, Fin.ext_iff]
  omega

/-- What `registerReference` answers: nothing outside 32768..32775, and in it the register whose reference the word is. -/
theorem registerReference_eq_some {w : Word} {i : Fin 8} : registerReference w = some i ↔ w = referenceWord i := by
  constructor
  · intro h
    unfold registerReference at h
    split at h
    · next hr =>
      apply BitVec.eq_of_toNat_eq
      have hi : w.toNat - 32768 = i.val := by simpa [Fin.ext_iff] using h
      rw [referenceWord_toNat]
      omega
    · simp at h
  · rintro rfl
    simp

theorem registerReference_eq_none {w : Word} : registerReference w = none ↔ w.toNat < 32768 ∨ 32775 < w.toNat := by
  unfold registerReference
  split
  · next h => simp; omega
  · next h => simp; omega

/-! ### Operand words and forms -/

/-- A V operand word of each range has the form of that range. -/
theorem ValueOperand.ofWord_cases (w : Word) :
    (w.toNat ≤ 32767 ∧ ValueOperand.ofWord w = .literal w) ∨
    (∃ i, w = referenceWord i ∧ ValueOperand.ofWord w = .register i) ∨
    (32776 ≤ w.toNat ∧ ValueOperand.ofWord w = .invalid w) := by
  unfold ValueOperand.ofWord
  split
  · next h => exact .inl ⟨h, rfl⟩
  · next h =>
    split
    · next i hi => exact .inr (.inl ⟨i, registerReference_eq_some.1 hi, rfl⟩)
    · next hn => exact .inr (.inr ⟨by have := registerReference_eq_none.1 hn; omega, rfl⟩)

/-- A T operand word of each range has the form of that range. -/
theorem TargetOperand.ofWord_cases (w : Word) :
    (∃ i : Fin 8, w.toNat = i.val ∧ TargetOperand.ofWord w = .direct i) ∨
    (∃ i, w = referenceWord i ∧ TargetOperand.ofWord w = .register i) ∨
    (((8 ≤ w.toNat ∧ w.toNat ≤ 32767) ∨ 32776 ≤ w.toNat) ∧ TargetOperand.ofWord w = .invalid w) := by
  unfold TargetOperand.ofWord
  split
  · next h => exact .inl ⟨⟨w.toNat, by omega⟩, rfl, rfl⟩
  · next h =>
    split
    · next i hi => exact .inr (.inl ⟨i, registerReference_eq_some.1 hi, rfl⟩)
    · next hn => exact .inr (.inr ⟨by have := registerReference_eq_none.1 hn; omega, rfl⟩)

@[simp] theorem ValueOperand.word_ofWord (w : Word) : (ValueOperand.ofWord w).word = w := by
  rcases ValueOperand.ofWord_cases w with ⟨-, h⟩ | ⟨i, hw, h⟩ | ⟨-, h⟩ <;> simp [h, ValueOperand.word]
  exact hw.symm

@[simp] theorem TargetOperand.word_ofWord (w : Word) : (TargetOperand.ofWord w).word = w := by
  rcases TargetOperand.ofWord_cases w with ⟨i, hw, h⟩ | ⟨i, hw, h⟩ | ⟨-, h⟩ <;> simp [h, TargetOperand.word]
  · simp [← hw]
  · exact hw.symm

theorem ValueOperand.wf_ofWord (w : Word) : (ValueOperand.ofWord w).wf = true := by
  rcases ValueOperand.ofWord_cases w with ⟨hw, h⟩ | ⟨i, -, h⟩ | ⟨hw, h⟩ <;> simp [h, ValueOperand.wf]
  · exact hw
  · exact hw

theorem TargetOperand.wf_ofWord (w : Word) : (TargetOperand.ofWord w).wf = true := by
  rcases TargetOperand.ofWord_cases w with ⟨i, -, h⟩ | ⟨i, -, h⟩ | ⟨hw, h⟩ <;> simp [h, TargetOperand.wf]
  exact hw

theorem ValueOperand.ofWord_word {o : ValueOperand} (h : o.wf = true) : ValueOperand.ofWord o.word = o := by
  cases o with
  | literal v =>
    have hv : v.toNat ≤ 32767 := by simpa [ValueOperand.wf] using h
    simp [ValueOperand.word, ValueOperand.ofWord, hv]
  | register i =>
    have := referenceWord_toNat i
    have hn : ¬ (referenceWord i).toNat ≤ 32767 := by omega
    simp [ValueOperand.word, ValueOperand.ofWord, hn]
  | invalid w =>
    have hw : 32776 ≤ w.toNat := by simpa [ValueOperand.wf] using h
    have hn : ¬ w.toNat ≤ 32767 := by omega
    have hr : registerReference w = none := registerReference_eq_none.2 (by omega)
    simp [ValueOperand.word, ValueOperand.ofWord, hn, hr]

theorem TargetOperand.ofWord_word {o : TargetOperand} (h : o.wf = true) : TargetOperand.ofWord o.word = o := by
  cases o with
  | direct i =>
    have := i.isLt
    have hn : (BitVec.ofNat 16 i.val).toNat = i.val := by simp only [BitVec.toNat_ofNat]; omega
    have hl : i.val ≤ 7 := by omega
    simp only [TargetOperand.word, TargetOperand.ofWord, hn, hl, dite_true]
  | register i =>
    have := referenceWord_toNat i
    have hn : ¬ (referenceWord i).toNat ≤ 7 := by omega
    simp [TargetOperand.word, TargetOperand.ofWord, hn]
  | invalid w =>
    have hw : (8 ≤ w.toNat ∧ w.toNat ≤ 32767) ∨ 32776 ≤ w.toNat := by simpa [TargetOperand.wf] using h
    have hn : ¬ w.toNat ≤ 7 := by omega
    have hr : registerReference w = none := registerReference_eq_none.2 (by omega)
    simp [TargetOperand.word, TargetOperand.ofWord, hn, hr]

/-! ### Lists of bytes -/

theorem byteListWord_zero (lo hi : Byte) (bs : List Byte) : byteListWord (lo :: hi :: bs) 0 = wordOfBytes lo hi := rfl

theorem byteListWord_succ (lo hi : Byte) (bs : List Byte) (k : Nat) :
    byteListWord (lo :: hi :: bs) (k + 1) = byteListWord bs k := by
  have h0 : 2 * (k + 1) = 2 * k + 1 + 1 := by omega
  have h1 : 2 * (k + 1) + 1 = 2 * k + 1 + 1 + 1 := by omega
  simp only [byteListWord, h1, List.getD_cons_succ]
  rw [h0, List.getD_cons_succ, List.getD_cons_succ]

/-- Word `k` of the bytes of a list of words is its word `k`. -/
theorem byteListWord_bytesOfWords (ws : List Word) (rest : List Byte) (k : Nat) (h : k < ws.length) :
    byteListWord (bytesOfWords ws ++ rest) k = ws[k] := by
  induction ws generalizing k with
  | nil => simp at h
  | cons w ws ih =>
    cases k with
    | zero => simp [bytesOfWords, byteListWord_zero]
    | succ k =>
      simp only [bytesOfWords, List.cons_append, byteListWord_succ, List.getElem_cons_succ]
      exact ih k (by simpa using h)

/-! ### Instructions and words -/

theorem length_pos (i : Instr) : 1 ≤ i.length := by cases i <;> simp [Instr.length]

theorem length_le_four (i : Instr) : i.length ≤ 4 := by cases i <;> simp [Instr.length]

/-- An instruction is encoded in as many words as its length says (30_encoding.md R37, R43). -/
theorem encode_length (i : Instr) : (encode i).length = i.length := by cases i <;> rfl

theorem encodeBytes_length (i : Instr) : (encodeBytes i).length = 2 * i.length := by
  rw [encodeBytes, bytesOfWords_length, encode_length]

/-- What `decode` accepts: the bytes of an instruction the opcode map has, all of them there. -/
theorem decode_eq_ok {bs rest : List Byte} {i : Instr} (h : decode bs = .ok (i, rest)) :
    2 * i.length ≤ bs.length ∧ rest = bs.drop (2 * i.length) ∧
      decodeWords (byteListWord bs 0) (byteListWord bs 1) (byteListWord bs 2) (byteListWord bs 3) = some i := by
  unfold decode at h
  split at h
  · simp at h
  · split at h
    · simp at h
    · next j hj =>
      split at h
      · simp at h
      · simp only [Except.ok.injEq, Prod.mk.injEq] at h
        obtain ⟨rfl, rfl⟩ := h
        exact ⟨by omega, rfl, hj⟩

/-- The instruction found has the opcode word's opcode. -/
theorem decodeWords_opcode {op a b c : Word} {i : Instr} (h : decodeWords op a b c = some i) : i.opcode = op := by
  unfold decodeWords at h
  split at h <;>
    first
    | (next h0 =>
        simp only [Option.some.injEq] at h
        subst h
        exact BitVec.eq_of_toNat_eq (by simp [Instr.opcode, h0]))
    | simp at h

/-- No instruction exactly where the opcode word is 22 or more. -/
theorem decodeWords_eq_none {op a b c : Word} : decodeWords op a b c = none ↔ 22 ≤ op.toNat := by
  unfold decodeWords
  constructor
  · intro h
    split at h <;> simp_all
    omega
  · intro h
    split <;> first | omega | rfl

end Sys2Proof
end

