-- ==== Sys2Proof/Laws/Memory.lean ====
section
/-! SUPPORT. Memory: reading after writing, at the cell written and at every other; every operation keeps the canonical form. -/

namespace Sys2Proof.Machine

namespace Memory

/-! ### Reading a cell after writing one -/

theorem byteAt_insertCell (c : Host.Cell) (m : Memory) (k : Nat) (h : ∀ d ∈ m, d.1 ≠ c.1) :
    (insertCell c m).byteAt k = if c.1 = k then c.2 else m.byteAt k := by
  induction m with
  | nil => simp [insertCell, byteAt]
  | cons d m ih =>
    have hd : d.1 ≠ c.1 := h d (by simp)
    have hm : ∀ e ∈ m, e.1 ≠ c.1 := fun e he => h e (by simp [he])
    unfold insertCell
    split
    · simp [byteAt]
    · simp only [byteAt, ih hm]
      split
      · next hk =>
        rw [if_neg]
        intro hc
        exact hd (by rw [hk, hc])
      · rfl

theorem byteAt_filter (m : Memory) (j k : Nat) :
    byteAt (m.filter (fun c => c.1 != j)) k = if k = j then 0 else m.byteAt k := by
  induction m with
  | nil => simp [byteAt]
  | cons d m ih =>
    by_cases hd : d.1 = j
    · simp only [hd, bne_self_eq_false, Bool.false_eq_true, not_false_eq_true, List.filter_cons_of_neg, ih, byteAt]
      split
      · rfl
      · next hk => rw [if_neg (Ne.symm hk)]
    · rw [List.filter_cons_of_pos (p := fun c : Host.Cell => c.1 != j) (by simpa using hd)]
      simp only [byteAt, ih]
      split
      · next hk => rw [if_neg (by omega)]
      · rfl

/-- Reading cell `k` after cell `j` was written. -/
theorem byteAt_setByte (m : Memory) (j k : Nat) (v : Byte) : (m.setByte j v).byteAt k = if k = j then v else m.byteAt k := by
  unfold setByte
  split
  · next hv => rw [byteAt_filter]; simp [hv]
  · rw [byteAt_insertCell _ _ _ (by intro d hd; simpa using (List.mem_filter.1 hd).2)]
    simp only [byteAt_filter]
    split
    · next h => simp [h]
    · next h => simp [Ne.symm h]

/-! ### Words -/

/-- Every byte of memory outside the two of word `a` is untouched by a write of word `a`. -/
theorem byteAt_setWord_other (m : Memory) (a : Nat) (v : Word) (k : Nat) (h0 : k ≠ 2 * a) (h1 : k ≠ 2 * a + 1) :
    (m.setWord a v).byteAt k = m.byteAt k := by
  simp [setWord, byteAt_setByte, h0, h1]

@[simp] theorem wordAt_setWord_same (m : Memory) (a : Nat) (v : Word) : (m.setWord a v).wordAt a = v := by
  simp [wordAt, setWord, byteAt_setByte]

theorem wordAt_setWord_other (m : Memory) {a b : Nat} (v : Word) (h : b ≠ a) : (m.setWord a v).wordAt b = m.wordAt b := by
  simp only [wordAt]
  rw [byteAt_setWord_other _ _ _ _ (by omega) (by omega), byteAt_setWord_other _ _ _ _ (by omega) (by omega)]

theorem wordAt_setWord (m : Memory) (a b : Nat) (v : Word) :
    (m.setWord a v).wordAt b = if b = a then v else m.wordAt b := by
  split
  · next h => simp [h]
  · next h => exact wordAt_setWord_other m v h

@[simp] theorem byteAt_nil (k : Nat) : byteAt [] k = 0 := rfl

@[simp] theorem wordAt_nil (a : Nat) : wordAt [] a = 0 := rfl

/-! ### The canonical form -/

theorem wf_nil : wf [] := by simp [wf]

theorem wf_filter {m : Memory} (h : m.wf) (j : Nat) : wf (m.filter (fun c => c.1 != j)) :=
  ⟨h.1.filter _, fun c hc => h.2 c (List.mem_filter.1 hc).1⟩

theorem mem_insertCell {c d : Host.Cell} {m : Memory} : d ∈ insertCell c m ↔ d = c ∨ d ∈ m := by
  induction m with
  | nil => simp [insertCell]
  | cons e m ih =>
    unfold insertCell
    split
    · simp
    · simp only [List.mem_cons, ih]
      tauto

theorem pairwise_insertCell {c : Host.Cell} {m : Memory} (h : m.Pairwise (fun c d => c.1 < d.1)) (hc : ∀ d ∈ m, d.1 ≠ c.1) :
    (insertCell c m).Pairwise (fun c d => c.1 < d.1) := by
  induction m with
  | nil => simp [insertCell]
  | cons e m ih =>
    rw [List.pairwise_cons] at h
    unfold insertCell
    split
    · next hlt =>
      refine List.pairwise_cons.2 ⟨?_, List.pairwise_cons.2 h⟩
      intro d hd
      rcases List.mem_cons.1 hd with rfl | hd
      · exact hlt
      · exact Nat.lt_trans hlt (h.1 d hd)
    · next hlt =>
      have he := hc e (by simp)
      refine List.pairwise_cons.2 ⟨?_, ih h.2 fun d hd => hc d (by simp [hd])⟩
      intro d hd
      rcases mem_insertCell.1 hd with rfl | hd
      · omega
      · exact h.1 d hd

/-- Writing a cell inside the 32768 words keeps the canonical form. -/
theorem wf_setByte {m : Memory} (h : m.wf) {k : Nat} (hk : k < 65536) (v : Byte) : (m.setByte k v).wf := by
  have hf := wf_filter h k
  unfold setByte
  split
  · exact hf
  · next hv =>
    refine ⟨pairwise_insertCell hf.1 (by intro d hd; simpa using (List.mem_filter.1 hd).2), ?_⟩
    intro c hc
    rcases mem_insertCell.1 hc with rfl | hc
    · exact ⟨hv, hk⟩
    · exact hf.2 c hc

/-- Writing a word at an address 0..32767 keeps the canonical form. -/
theorem wf_setWord {m : Memory} (h : m.wf) {a : Nat} (ha : a < 32768) (v : Word) : (m.setWord a v).wf :=
  wf_setByte (wf_setByte h (by omega) _) (by omega) _

end Memory

/-! ### The image -/

/-- Cell `k + j` of an image laid out from cell `k` on is byte `j` of the image. -/
theorem byteAt_imageCells (bs : List Byte) (k j : Nat) : (imageCells k bs).byteAt (k + j) = bs.getD j 0 := by
  have before : ∀ (bs : List Byte) (k n : Nat), n < k → (imageCells k bs).byteAt n = 0 := by
    intro bs
    induction bs with
    | nil => intros; rfl
    | cons b bs ih =>
      intro k n h
      unfold imageCells
      split
      · exact ih (k + 1) n (by omega)
      · simp only [Memory.byteAt]
        rw [if_neg (by omega), ih (k + 1) n (by omega)]
  induction bs generalizing k j with
  | nil => rfl
  | cons b bs ih =>
    cases j with
    | zero =>
      unfold imageCells
      split
      · next hb => simp [hb, before bs (k + 1) k (by omega)]
      · simp [Memory.byteAt]
    | succ j =>
      have hk : k + (j + 1) = (k + 1) + j := by omega
      unfold imageCells
      split
      · rw [hk, ih]; simp
      · simp only [Memory.byteAt]
        rw [if_neg (by omega), hk, ih]; simp

theorem imageCells_bounds (bs : List Byte) (k : Nat) : ∀ c ∈ imageCells k bs, k ≤ c.1 ∧ c.1 < k + bs.length ∧ c.2 ≠ 0 := by
  induction bs generalizing k with
  | nil => simp [imageCells]
  | cons b bs ih =>
    intro c hc
    unfold imageCells at hc
    split at hc
    · obtain ⟨h1, h2, h3⟩ := ih (k + 1) c hc
      simp only [List.length_cons]
      exact ⟨by omega, by omega, h3⟩
    · next hb =>
      rcases List.mem_cons.1 hc with rfl | hc
      · simp only [List.length_cons]
        exact ⟨by omega, by omega, hb⟩
      · obtain ⟨h1, h2, h3⟩ := ih (k + 1) c hc
        simp only [List.length_cons]
        exact ⟨by omega, by omega, h3⟩

/-- An image of at most 65536 bytes is laid out in the canonical form. -/
theorem wf_imageCells (bs : List Byte) (k : Nat) (h : k + bs.length ≤ 65536) : (imageCells k bs).wf := by
  refine ⟨?_, fun c hc => ⟨(imageCells_bounds bs k c hc).2.2, by have := (imageCells_bounds bs k c hc).2.1; omega⟩⟩
  clear h
  induction bs generalizing k with
  | nil => simp [imageCells]
  | cons b bs ih =>
    unfold imageCells
    split
    · exact ih (k + 1)
    · refine List.pairwise_cons.2 ⟨?_, ih (k + 1)⟩
      intro c hc
      have := (imageCells_bounds bs (k + 1) c hc).1
      simp only
      omega

end Sys2Proof.Machine
end

