-- ==== Sys2Proof/Laws/State.lean ====
section
/-! SUPPORT. One lemma per field per update of State, all by rfl, and what reading a register says after each update. -/

namespace Sys2Proof.Machine

/-! ### setMem -/

@[simp] theorem State.setMem_mem (s : State) (v : Memory) : (s.setMem v).mem = v := rfl
@[simp] theorem State.setMem_x (s : State) (v : Memory) : (s.setMem v).x = s.x := rfl
@[simp] theorem State.setMem_pc (s : State) (v : Memory) : (s.setMem v).pc = s.pc := rfl
@[simp] theorem State.setMem_stack (s : State) (v : Memory) : (s.setMem v).stack = s.stack := rfl
@[simp] theorem State.setMem_inq (s : State) (v : Memory) : (s.setMem v).inq = s.inq := rfl
@[simp] theorem State.setMem_outbuf (s : State) (v : Memory) : (s.setMem v).outbuf = s.outbuf := rfl
@[simp] theorem State.setMem_status (s : State) (v : Memory) : (s.setMem v).status = s.status := rfl
@[simp] theorem State.setMem_hostAnswers (s : State) (v : Memory) : (s.setMem v).hostAnswers = s.hostAnswers := rfl
@[simp] theorem State.setMem_config (s : State) (v : Memory) : (s.setMem v).config = s.config := rfl
@[simp] theorem State.setMem_reg (s : State) (v : Memory) (i : Fin 8) : (s.setMem v).reg i = s.reg i := rfl
@[simp] theorem State.setMem_setMem (s : State) (v w : Memory) : (s.setMem v).setMem w = s.setMem w := rfl

/-! ### setX -/

@[simp] theorem State.setX_mem (s : State) (v : Vector Word 8) : (s.setX v).mem = s.mem := rfl
@[simp] theorem State.setX_x (s : State) (v : Vector Word 8) : (s.setX v).x = v := rfl
@[simp] theorem State.setX_pc (s : State) (v : Vector Word 8) : (s.setX v).pc = s.pc := rfl
@[simp] theorem State.setX_stack (s : State) (v : Vector Word 8) : (s.setX v).stack = s.stack := rfl
@[simp] theorem State.setX_inq (s : State) (v : Vector Word 8) : (s.setX v).inq = s.inq := rfl
@[simp] theorem State.setX_outbuf (s : State) (v : Vector Word 8) : (s.setX v).outbuf = s.outbuf := rfl
@[simp] theorem State.setX_status (s : State) (v : Vector Word 8) : (s.setX v).status = s.status := rfl
@[simp] theorem State.setX_hostAnswers (s : State) (v : Vector Word 8) : (s.setX v).hostAnswers = s.hostAnswers := rfl
@[simp] theorem State.setX_config (s : State) (v : Vector Word 8) : (s.setX v).config = s.config := rfl
@[simp] theorem State.setX_setX (s : State) (v w : Vector Word 8) : (s.setX v).setX w = s.setX w := rfl

/-! ### setPc -/

@[simp] theorem State.setPc_mem (s : State) (v : Word) : (s.setPc v).mem = s.mem := rfl
@[simp] theorem State.setPc_x (s : State) (v : Word) : (s.setPc v).x = s.x := rfl
@[simp] theorem State.setPc_pc (s : State) (v : Word) : (s.setPc v).pc = v := rfl
@[simp] theorem State.setPc_stack (s : State) (v : Word) : (s.setPc v).stack = s.stack := rfl
@[simp] theorem State.setPc_inq (s : State) (v : Word) : (s.setPc v).inq = s.inq := rfl
@[simp] theorem State.setPc_outbuf (s : State) (v : Word) : (s.setPc v).outbuf = s.outbuf := rfl
@[simp] theorem State.setPc_status (s : State) (v : Word) : (s.setPc v).status = s.status := rfl
@[simp] theorem State.setPc_hostAnswers (s : State) (v : Word) : (s.setPc v).hostAnswers = s.hostAnswers := rfl
@[simp] theorem State.setPc_config (s : State) (v : Word) : (s.setPc v).config = s.config := rfl
@[simp] theorem State.setPc_reg (s : State) (v : Word) (i : Fin 8) : (s.setPc v).reg i = s.reg i := rfl
@[simp] theorem State.setPc_setPc (s : State) (v w : Word) : (s.setPc v).setPc w = s.setPc w := rfl

/-! ### setStack -/

@[simp] theorem State.setStack_mem (s : State) (v : List Word) : (s.setStack v).mem = s.mem := rfl
@[simp] theorem State.setStack_x (s : State) (v : List Word) : (s.setStack v).x = s.x := rfl
@[simp] theorem State.setStack_pc (s : State) (v : List Word) : (s.setStack v).pc = s.pc := rfl
@[simp] theorem State.setStack_stack (s : State) (v : List Word) : (s.setStack v).stack = v := rfl
@[simp] theorem State.setStack_inq (s : State) (v : List Word) : (s.setStack v).inq = s.inq := rfl
@[simp] theorem State.setStack_outbuf (s : State) (v : List Word) : (s.setStack v).outbuf = s.outbuf := rfl
@[simp] theorem State.setStack_status (s : State) (v : List Word) : (s.setStack v).status = s.status := rfl
@[simp] theorem State.setStack_hostAnswers (s : State) (v : List Word) : (s.setStack v).hostAnswers = s.hostAnswers := rfl
@[simp] theorem State.setStack_config (s : State) (v : List Word) : (s.setStack v).config = s.config := rfl
@[simp] theorem State.setStack_reg (s : State) (v : List Word) (i : Fin 8) : (s.setStack v).reg i = s.reg i := rfl
@[simp] theorem State.setStack_setStack (s : State) (v w : List Word) : (s.setStack v).setStack w = s.setStack w := rfl

/-! ### setInq -/

@[simp] theorem State.setInq_mem (s : State) (v : List Byte) : (s.setInq v).mem = s.mem := rfl
@[simp] theorem State.setInq_x (s : State) (v : List Byte) : (s.setInq v).x = s.x := rfl
@[simp] theorem State.setInq_pc (s : State) (v : List Byte) : (s.setInq v).pc = s.pc := rfl
@[simp] theorem State.setInq_stack (s : State) (v : List Byte) : (s.setInq v).stack = s.stack := rfl
@[simp] theorem State.setInq_inq (s : State) (v : List Byte) : (s.setInq v).inq = v := rfl
@[simp] theorem State.setInq_outbuf (s : State) (v : List Byte) : (s.setInq v).outbuf = s.outbuf := rfl
@[simp] theorem State.setInq_status (s : State) (v : List Byte) : (s.setInq v).status = s.status := rfl
@[simp] theorem State.setInq_hostAnswers (s : State) (v : List Byte) : (s.setInq v).hostAnswers = s.hostAnswers := rfl
@[simp] theorem State.setInq_config (s : State) (v : List Byte) : (s.setInq v).config = s.config := rfl
@[simp] theorem State.setInq_reg (s : State) (v : List Byte) (i : Fin 8) : (s.setInq v).reg i = s.reg i := rfl
@[simp] theorem State.setInq_setInq (s : State) (v w : List Byte) : (s.setInq v).setInq w = s.setInq w := rfl

/-! ### setOutbuf -/

@[simp] theorem State.setOutbuf_mem (s : State) (v : List Byte) : (s.setOutbuf v).mem = s.mem := rfl
@[simp] theorem State.setOutbuf_x (s : State) (v : List Byte) : (s.setOutbuf v).x = s.x := rfl
@[simp] theorem State.setOutbuf_pc (s : State) (v : List Byte) : (s.setOutbuf v).pc = s.pc := rfl
@[simp] theorem State.setOutbuf_stack (s : State) (v : List Byte) : (s.setOutbuf v).stack = s.stack := rfl
@[simp] theorem State.setOutbuf_inq (s : State) (v : List Byte) : (s.setOutbuf v).inq = s.inq := rfl
@[simp] theorem State.setOutbuf_outbuf (s : State) (v : List Byte) : (s.setOutbuf v).outbuf = v := rfl
@[simp] theorem State.setOutbuf_status (s : State) (v : List Byte) : (s.setOutbuf v).status = s.status := rfl
@[simp] theorem State.setOutbuf_hostAnswers (s : State) (v : List Byte) : (s.setOutbuf v).hostAnswers = s.hostAnswers := rfl
@[simp] theorem State.setOutbuf_config (s : State) (v : List Byte) : (s.setOutbuf v).config = s.config := rfl
@[simp] theorem State.setOutbuf_reg (s : State) (v : List Byte) (i : Fin 8) : (s.setOutbuf v).reg i = s.reg i := rfl
@[simp] theorem State.setOutbuf_setOutbuf (s : State) (v w : List Byte) : (s.setOutbuf v).setOutbuf w = s.setOutbuf w := rfl

/-! ### setStatus -/

@[simp] theorem State.setStatus_mem (s : State) (v : Status) : (s.setStatus v).mem = s.mem := rfl
@[simp] theorem State.setStatus_x (s : State) (v : Status) : (s.setStatus v).x = s.x := rfl
@[simp] theorem State.setStatus_pc (s : State) (v : Status) : (s.setStatus v).pc = s.pc := rfl
@[simp] theorem State.setStatus_stack (s : State) (v : Status) : (s.setStatus v).stack = s.stack := rfl
@[simp] theorem State.setStatus_inq (s : State) (v : Status) : (s.setStatus v).inq = s.inq := rfl
@[simp] theorem State.setStatus_outbuf (s : State) (v : Status) : (s.setStatus v).outbuf = s.outbuf := rfl
@[simp] theorem State.setStatus_status (s : State) (v : Status) : (s.setStatus v).status = v := rfl
@[simp] theorem State.setStatus_hostAnswers (s : State) (v : Status) : (s.setStatus v).hostAnswers = s.hostAnswers := rfl
@[simp] theorem State.setStatus_config (s : State) (v : Status) : (s.setStatus v).config = s.config := rfl
@[simp] theorem State.setStatus_reg (s : State) (v : Status) (i : Fin 8) : (s.setStatus v).reg i = s.reg i := rfl
@[simp] theorem State.setStatus_setStatus (s : State) (v w : Status) : (s.setStatus v).setStatus w = s.setStatus w := rfl

/-! ### setHostAnswers -/

@[simp] theorem State.setHostAnswers_mem (s : State) (v : List HostAnswer) : (s.setHostAnswers v).mem = s.mem := rfl
@[simp] theorem State.setHostAnswers_x (s : State) (v : List HostAnswer) : (s.setHostAnswers v).x = s.x := rfl
@[simp] theorem State.setHostAnswers_pc (s : State) (v : List HostAnswer) : (s.setHostAnswers v).pc = s.pc := rfl
@[simp] theorem State.setHostAnswers_stack (s : State) (v : List HostAnswer) : (s.setHostAnswers v).stack = s.stack := rfl
@[simp] theorem State.setHostAnswers_inq (s : State) (v : List HostAnswer) : (s.setHostAnswers v).inq = s.inq := rfl
@[simp] theorem State.setHostAnswers_outbuf (s : State) (v : List HostAnswer) : (s.setHostAnswers v).outbuf = s.outbuf := rfl
@[simp] theorem State.setHostAnswers_status (s : State) (v : List HostAnswer) : (s.setHostAnswers v).status = s.status := rfl
@[simp] theorem State.setHostAnswers_hostAnswers (s : State) (v : List HostAnswer) : (s.setHostAnswers v).hostAnswers = v := rfl
@[simp] theorem State.setHostAnswers_config (s : State) (v : List HostAnswer) : (s.setHostAnswers v).config = s.config := rfl
@[simp] theorem State.setHostAnswers_reg (s : State) (v : List HostAnswer) (i : Fin 8) : (s.setHostAnswers v).reg i = s.reg i := rfl
@[simp] theorem State.setHostAnswers_setHostAnswers (s : State) (v w : List HostAnswer) : (s.setHostAnswers v).setHostAnswers w = s.setHostAnswers w := rfl

/-! ### setReg -/

@[simp] theorem State.setReg_mem (s : State) (i : Fin 8) (v : Word) : (s.setReg i v).mem = s.mem := rfl
@[simp] theorem State.setReg_pc (s : State) (i : Fin 8) (v : Word) : (s.setReg i v).pc = s.pc := rfl
@[simp] theorem State.setReg_stack (s : State) (i : Fin 8) (v : Word) : (s.setReg i v).stack = s.stack := rfl
@[simp] theorem State.setReg_inq (s : State) (i : Fin 8) (v : Word) : (s.setReg i v).inq = s.inq := rfl
@[simp] theorem State.setReg_outbuf (s : State) (i : Fin 8) (v : Word) : (s.setReg i v).outbuf = s.outbuf := rfl
@[simp] theorem State.setReg_status (s : State) (i : Fin 8) (v : Word) : (s.setReg i v).status = s.status := rfl
@[simp] theorem State.setReg_hostAnswers (s : State) (i : Fin 8) (v : Word) : (s.setReg i v).hostAnswers = s.hostAnswers := rfl
@[simp] theorem State.setReg_config (s : State) (i : Fin 8) (v : Word) : (s.setReg i v).config = s.config := rfl

@[simp] theorem State.setReg_x (s : State) (i : Fin 8) (v : Word) : (s.setReg i v).x = s.x.set i v := rfl

theorem State.reg_setReg (s : State) (i j : Fin 8) (v : Word) : (s.setReg i v).reg j = if i = j then v else s.reg j := by
  simp only [State.reg, State.setReg, State.setX, Vector.get_eq_getElem, Vector.getElem_set, Fin.ext_iff]

@[simp] theorem State.reg_setReg_same (s : State) (i : Fin 8) (v : Word) : (s.setReg i v).reg i = v := by
  simp [State.reg_setReg]

theorem State.reg_setReg_other (s : State) {i j : Fin 8} (v : Word) (h : i ≠ j) : (s.setReg i v).reg j = s.reg j := by
  simp [State.reg_setReg, h]

/-! ### takeFault and hostReplies -/

@[simp] theorem takeFault_mem (c : FaultCause) (p : Word) (s : State) : (takeFault c p s).mem = s.mem := rfl
@[simp] theorem takeFault_x (c : FaultCause) (p : Word) (s : State) : (takeFault c p s).x = s.x := rfl
@[simp] theorem takeFault_pc (c : FaultCause) (p : Word) (s : State) : (takeFault c p s).pc = s.pc := rfl
@[simp] theorem takeFault_stack (c : FaultCause) (p : Word) (s : State) : (takeFault c p s).stack = s.stack := rfl
@[simp] theorem takeFault_inq (c : FaultCause) (p : Word) (s : State) : (takeFault c p s).inq = s.inq := rfl
@[simp] theorem takeFault_outbuf (c : FaultCause) (p : Word) (s : State) : (takeFault c p s).outbuf = s.outbuf := rfl
@[simp] theorem takeFault_status (c : FaultCause) (p : Word) (s : State) : (takeFault c p s).status = .faulted ⟨c, p⟩ := rfl
@[simp] theorem takeFault_hostAnswers (c : FaultCause) (p : Word) (s : State) : (takeFault c p s).hostAnswers = s.hostAnswers := rfl
@[simp] theorem takeFault_config (c : FaultCause) (p : Word) (s : State) : (takeFault c p s).config = s.config := rfl
@[simp] theorem takeFault_reg (c : FaultCause) (p : Word) (s : State) (i : Fin 8) : (takeFault c p s).reg i = s.reg i := rfl

@[simp] theorem State.hostReplies_mem (s : State) (r : HostAnswer) : (s.hostReplies r).mem = s.mem := rfl
@[simp] theorem State.hostReplies_x (s : State) (r : HostAnswer) : (s.hostReplies r).x = s.x := rfl
@[simp] theorem State.hostReplies_pc (s : State) (r : HostAnswer) : (s.hostReplies r).pc = s.pc := rfl
@[simp] theorem State.hostReplies_stack (s : State) (r : HostAnswer) : (s.hostReplies r).stack = s.stack := rfl
@[simp] theorem State.hostReplies_inq (s : State) (r : HostAnswer) : (s.hostReplies r).inq = s.inq := rfl
@[simp] theorem State.hostReplies_outbuf (s : State) (r : HostAnswer) : (s.hostReplies r).outbuf = s.outbuf := rfl
@[simp] theorem State.hostReplies_status (s : State) (r : HostAnswer) : (s.hostReplies r).status = s.status := rfl
@[simp] theorem State.hostReplies_hostAnswers (s : State) (r : HostAnswer) : (s.hostReplies r).hostAnswers = s.hostAnswers ++ [r] := rfl
@[simp] theorem State.hostReplies_config (s : State) (r : HostAnswer) : (s.hostReplies r).config = s.config := rfl

end Sys2Proof.Machine
end

