-- ==== Sys2Proof/Laws/Micro.lean ====
section
/-! SUPPORT. Micro-steps in sequence: how a bind computes, what all of a sequence keeps, and what completing an instruction answers. -/

namespace Sys2Proof.Machine

variable {α β : Type}

@[simp] theorem Micro.bind_done (a : α) (s : State) (f : α → State → Micro β) : (Micro.done a s).bind f = f a s := rfl
@[simp] theorem Micro.bind_raised (c : FaultCause) (s : State) (f : α → State → Micro β) :
    (Micro.raised c s).bind f = .raised c s := rfl
@[simp] theorem Micro.bind_waiting (f : α → State → Micro β) : (Micro.waiting : Micro α).bind f = .waiting := rfl

/-- `P` holds of the state the micro-steps leave, whether they took effect or one raised; waiting leaves none. -/
def Micro.Holds (P : State → Prop) : Micro α → Prop
  | .done _ s => P s
  | .raised _ s => P s
  | .waiting => True

@[simp] theorem Micro.holds_done (P : State → Prop) (a : α) (s : State) : (Micro.done a s).Holds P ↔ P s := Iff.rfl
@[simp] theorem Micro.holds_raised (P : State → Prop) (c : FaultCause) (s : State) :
    (Micro.raised c s : Micro α).Holds P ↔ P s := Iff.rfl
@[simp] theorem Micro.holds_waiting (P : State → Prop) : (Micro.waiting : Micro α).Holds P ↔ True := Iff.rfl

/-- What the first micro-steps leave, and every later one keeps, holds after the sequence. -/
theorem Micro.Holds.bind {P : State → Prop} {m : Micro α} {f : α → State → Micro β} (hm : m.Holds P)
    (hf : ∀ a s, P s → (f a s).Holds P) : (m.bind f).Holds P := by
  cases m with
  | done a s => exact hf a s hm
  | raised c s => exact hm
  | waiting => trivial

/-- A sequence that took effect took effect in both its parts. -/
theorem Micro.bind_eq_done {m : Micro α} {f : α → State → Micro β} {b : β} {t : State} :
    m.bind f = .done b t ↔ ∃ a s, m = .done a s ∧ f a s = .done b t := by
  cases m <;> simp

/-- A sequence that raised did so in its first part or, that having taken effect, in its second. -/
theorem Micro.bind_eq_raised {m : Micro α} {f : α → State → Micro β} {c : FaultCause} {t : State} :
    m.bind f = .raised c t ↔ m = .raised c t ∨ ∃ a s, m = .done a s ∧ f a s = .raised c t := by
  cases m <;> simp

@[simp] theorem complete_done (s t : State) : complete s (.done () t) = .next t := rfl
@[simp] theorem complete_raised (s t : State) (c : FaultCause) : complete s (.raised c t) = .next (takeFault c s.pc t) := rfl
@[simp] theorem complete_waiting (s : State) : complete s .waiting = .next s := rfl

/-- The next states of an instruction: its effects; the fault it raised, taken; or, waiting, the state it started in. -/
theorem complete_eq_next {s t : State} {m : Micro Unit} :
    complete s m = .next t ↔
      m = .done () t ∨ (∃ c u, m = .raised c u ∧ t = takeFault c s.pc u) ∨ (m = .waiting ∧ t = s) := by
  cases m with
  | done a u => simp [complete]
  | raised c u => simp [complete, eq_comm]
  | waiting => simp [complete, eq_comm]

/-- An instruction always answers a next state. -/
theorem complete_isNext (s : State) (m : Micro Unit) : ∃ t, complete s m = .next t := by
  cases m <;> exact ⟨_, rfl⟩

/-- A property that the micro-steps keep, and that taking a fault keeps, holds in the next state. -/
theorem complete_keeps {P : State → Prop} {s t : State} {m : Micro Unit} (h : complete s m = .next t) (hs : P s) (hm : m.Holds P)
    (hf : ∀ c u, P u → P (takeFault c s.pc u)) : P t := by
  rcases complete_eq_next.1 h with rfl | ⟨c, u, rfl, rfl⟩ | ⟨rfl, rfl⟩
  · exact hm
  · exact hf c u hm
  · exact hs

end Sys2Proof.Machine
end

