-- ==== Sys2Proof/Laws/Ops.lean ====
section
/-! SUPPORT. One spec lemma per shared operation: everything it can do. -/

namespace Sys2Proof.Machine

/-! ### Fetching -/

theorem fetchWord_done {s : State} (h : s.pc.toNat ≤ 32767) : fetchWord s = .done () (s.setPc (s.pc + 1)) :=
  if_neg (by omega)

theorem fetchWord_raised {s : State} (h : 32767 < s.pc.toNat) : fetchWord s = .raised (.invalidAddress .fetch s.pc) s :=
  if_pos h

/-- pc after a fetch, as a number: it never wraps. -/
theorem pc_succ_toNat {s : State} (h : s.pc.toNat ≤ 32767) : (s.pc + 1).toNat = s.pc.toNat + 1 := by
  rw [BitVec.toNat_add]
  simp
  omega

/-- What `fetchWord` can do. -/
theorem fetchWord_spec (s : State) :
    (s.pc.toNat ≤ 32767 ∧ fetchWord s = .done () (s.setPc (s.pc + 1))) ∨
    (32767 < s.pc.toNat ∧ fetchWord s = .raised (.invalidAddress .fetch s.pc) s) := by
  by_cases h : 32767 < s.pc.toNat
  · exact .inr ⟨h, fetchWord_raised h⟩
  · exact .inl ⟨by omega, fetchWord_done (by omega)⟩

/-- Fetching keeps whatever does not depend on pc. -/
theorem fetchWord_holds {P : State → Prop} {s : State} (hs : P s) (h : ∀ t p, P t → P (t.setPc p)) : (fetchWord s).Holds P := by
  rcases fetchWord_spec s with ⟨-, e⟩ | ⟨-, e⟩ <;> rw [e]
  · exact h s _ hs
  · exact hs

/-! ### Operands -/

/-- What `resolve` can do: it changes nothing. -/
theorem resolve_spec (o : ValueOperand) (s : State) :
    (∃ v, resolve o s = .done v s ∧ unresolvable o = none) ∨
    (∃ w, o = .invalid w ∧ resolve o s = .raised (.invalidAddress .operand w) s) := by
  cases o with
  | literal v => exact .inl ⟨v, rfl, rfl⟩
  | register i => exact .inl ⟨_, rfl, rfl⟩
  | invalid w => exact .inr ⟨w, rfl, rfl⟩

/-- Resolving reads the registers alone: a state with the same registers resolves to the same. -/
theorem resolve_congr {o : ValueOperand} {s t : State} {v : Word} (h : resolve o s = .done v s) (hx : t.x = s.x) :
    resolve o t = .done v t := by
  cases o with
  | literal u => simpa [resolve] using h
  | register i => simpa [resolve, State.reg, hx] using h
  | invalid w => simp [resolve] at h

theorem valueOperand_done {o : ValueOperand} {s : State} {v : Word} (hp : s.pc.toNat ≤ 32767) (h : resolve o s = .done v s) :
    valueOperand o s = .done v (s.setPc (s.pc + 1)) := by
  rw [valueOperand, fetchWord_done hp, Micro.bind_done]
  exact resolve_congr h rfl

theorem targetOperand_done {a : TargetOperand} {s : State} (hp : s.pc.toNat ≤ 32767) :
    targetOperand a s = .done a (s.setPc (s.pc + 1)) := by
  rw [targetOperand, fetchWord_done hp, Micro.bind_done]

/-- What `valueOperand` can do. -/
theorem valueOperand_spec (o : ValueOperand) (s : State) :
    (32767 < s.pc.toNat ∧ valueOperand o s = .raised (.invalidAddress .fetch s.pc) s) ∨
    (∃ v, s.pc.toNat ≤ 32767 ∧ resolve o s = .done v s ∧ valueOperand o s = .done v (s.setPc (s.pc + 1))) ∨
    (∃ w, s.pc.toNat ≤ 32767 ∧ o = .invalid w ∧
      valueOperand o s = .raised (.invalidAddress .operand w) (s.setPc (s.pc + 1))) := by
  rcases fetchWord_spec s with ⟨hp, e⟩ | ⟨hp, e⟩
  · rcases resolve_spec o s with ⟨v, h, -⟩ | ⟨w, rfl, -⟩
    · exact .inr (.inl ⟨v, hp, h, valueOperand_done hp h⟩)
    · exact .inr (.inr ⟨w, hp, rfl, by rw [valueOperand, e]; rfl⟩)
  · exact .inl ⟨hp, by rw [valueOperand, e]; rfl⟩

/-- What `targetOperand` can do: it never looks at the target. -/
theorem targetOperand_spec (a : TargetOperand) (s : State) :
    (32767 < s.pc.toNat ∧ targetOperand a s = .raised (.invalidAddress .fetch s.pc) s) ∨
    (s.pc.toNat ≤ 32767 ∧ targetOperand a s = .done a (s.setPc (s.pc + 1))) := by
  rcases fetchWord_spec s with ⟨hp, e⟩ | ⟨hp, e⟩
  · exact .inr ⟨hp, targetOperand_done hp⟩
  · exact .inl ⟨hp, by rw [targetOperand, e]; rfl⟩

theorem valueOperand_holds {P : State → Prop} (o : ValueOperand) {s : State} (hs : P s) (h : ∀ t p, P t → P (t.setPc p)) :
    (valueOperand o s).Holds P := by
  refine (fetchWord_holds hs h).bind fun _ t ht => ?_
  rcases resolve_spec o t with ⟨v, e, -⟩ | ⟨w, -, e⟩ <;> rw [e] <;> exact ht

/-- A target that is fetched comes back as it is, with only pc changed. -/
theorem targetOperand_bind_holds {α : Type} {P : State → Prop} (a : TargetOperand) {s : State} {f : TargetOperand → State → Micro α}
    (hs : P s) (h : ∀ t p, P t → P (t.setPc p)) (hf : ∀ t, P t → (f a t).Holds P) : ((targetOperand a s).bind f).Holds P := by
  rcases targetOperand_spec a s with ⟨-, e⟩ | ⟨-, e⟩ <;> rw [e]
  · exact hs
  · exact hf _ (h _ _ hs)

/-! ### Store -/

theorem reResolve_of_none {v : Word} (s : State) (h : registerReference v = none) : reResolve v s = v := by
  simp [reResolve, h]

/-- A value outside 32768..32775 is stored as it is. -/
theorem reResolve_of_not_reference {v : Word} (s : State) (h : v.toNat < 32768 ∨ 32775 < v.toNat) : reResolve v s = v :=
  reResolve_of_none s (registerReference_eq_none.2 h)

/-- A value 32768 + j stands for the contents of register j. -/
theorem reResolve_reference {v : Word} {j : Fin 8} (s : State) (h : v.toNat = 32768 + j.val) : reResolve v s = s.reg j := by
  have hj : registerReference v = some j :=
    registerReference_eq_some.2 (BitVec.eq_of_toNat_eq (by rw [referenceWord_toNat, h]))
  simp [reResolve, hj]

theorem store_done {a : TargetOperand} {i : Fin 8} (v : Word) (s : State) (h : targetRegister a = some i) :
    store a v s = .done () (s.setReg i (reResolve v s)) := by
  simp [store, h]

/-- What `store` can do. -/
theorem store_spec (a : TargetOperand) (v : Word) (s : State) :
    (∃ i, targetRegister a = some i ∧ store a v s = .done () (s.setReg i (reResolve v s))) ∨
    (∃ w, a = .invalid w ∧ store a v s = .raised (.invalidAddress .target w) s) := by
  cases a with
  | direct i => exact .inl ⟨i, rfl, rfl⟩
  | register i => exact .inl ⟨i, rfl, rfl⟩
  | invalid w => exact .inr ⟨w, rfl, rfl⟩

theorem store_holds {P : State → Prop} (a : TargetOperand) (v : Word) {s : State} (hs : P s)
    (h : ∀ i, targetRegister a = some i → P (s.setReg i (reResolve v s))) : (store a v s).Holds P := by
  rcases store_spec a v s with ⟨i, hi, e⟩ | ⟨w, -, e⟩ <;> rw [e]
  · exact h i hi
  · exact hs

/-- In a state whose registers obey the law of 10_state.md R21, what Store writes obeys it too. -/
theorem registerReference_reResolve {s : State} (h : ∀ i, registerReference (s.reg i) = none) (v : Word) :
    registerReference (reResolve v s) = none := by
  unfold reResolve
  split
  · exact h _
  · assumption

/-! ### The stack -/

theorem pushWord_done {s : State} (v : Word) (h : s.config.stackCapacity ≠ some s.stack.length) :
    pushWord v s = .done () (s.setStack (s.stack ++ [v])) := if_neg h

theorem pushWord_raised {s : State} (v : Word) (h : s.config.stackCapacity = some s.stack.length) :
    pushWord v s = .raised .stackOverflow s := if_pos h

/-- What `pushWord` can do. -/
theorem pushWord_spec (v : Word) (s : State) :
    (s.config.stackCapacity ≠ some s.stack.length ∧ pushWord v s = .done () (s.setStack (s.stack ++ [v]))) ∨
    (s.config.stackCapacity = some s.stack.length ∧ pushWord v s = .raised .stackOverflow s) := by
  by_cases h : s.config.stackCapacity = some s.stack.length
  · exact .inr ⟨h, pushWord_raised v h⟩
  · exact .inl ⟨h, pushWord_done v h⟩

theorem popWord_done {s : State} {st : List Word} {v : Word} (h : s.stack = st ++ [v]) : popWord s = .done v (s.setStack st) := by
  simp [popWord, h]

theorem popWord_raised {s : State} (h : s.stack = []) : popWord s = .raised .stackUnderflow s := by
  simp [popWord, h]

/-- What `popWord` can do. -/
theorem popWord_spec (s : State) :
    (∃ st v, s.stack = st ++ [v] ∧ popWord s = .done v (s.setStack st)) ∨
    (s.stack = [] ∧ popWord s = .raised .stackUnderflow s) := by
  rcases List.eq_nil_or_concat s.stack with h | ⟨st, v, h⟩
  · exact .inr ⟨h, popWord_raised h⟩
  · exact .inl ⟨st, v, by simpa using h, popWord_done (by simpa using h)⟩

/-! ### Memory -/

/-- What `memRead` can do: it changes nothing. -/
theorem memRead_spec (addr : Word) (s : State) :
    (addr.toNat ≤ 32767 ∧ memRead addr s = .done (s.mem.wordAt addr.toNat) s) ∨
    (32767 < addr.toNat ∧ memRead addr s = .raised (.invalidAddress .memory addr) s) := by
  by_cases h : 32767 < addr.toNat
  · exact .inr ⟨h, if_pos h⟩
  · exact .inl ⟨by omega, if_neg h⟩

/-- What `memWrite` can do. -/
theorem memWrite_spec (addr v : Word) (s : State) :
    (addr.toNat ≤ 32767 ∧ memWrite addr v s = .done () (s.setMem (s.mem.setWord addr.toNat v))) ∨
    (32767 < addr.toNat ∧ memWrite addr v s = .raised (.invalidAddress .memory addr) s) := by
  by_cases h : 32767 < addr.toNat
  · exact .inr ⟨h, if_pos h⟩
  · exact .inl ⟨by omega, if_neg h⟩

/-! ### Input -/

/-- What `takeInputByte` can do. -/
theorem takeInputByte_spec (s : State) :
    (∃ ch q, s.inq = ch :: q ∧ takeInputByte s = .done ch (s.setInq q)) ∨
    (∃ ch bs hs, s.inq = [] ∧ s.hostAnswers = .line ch bs :: hs ∧
      takeInputByte s = .done (lower ch) ((s.setHostAnswers hs).setInq (bs.map lower))) ∨
    (∃ hs, s.inq = [] ∧ s.hostAnswers = .eof :: hs ∧ takeInputByte s = .raised .endOfInput (s.setHostAnswers hs)) ∨
    (s.inq = [] ∧ s.hostAnswers = [] ∧ takeInputByte s = .waiting) := by
  cases hq : s.inq with
  | cons ch q => exact .inl ⟨ch, q, rfl, by simp [takeInputByte, hq]⟩
  | nil =>
    cases hh : s.hostAnswers with
    | nil => exact .inr (.inr (.inr ⟨rfl, rfl, by simp [takeInputByte, hq, hh]⟩))
    | cons r hs =>
      cases r with
      | line ch bs => exact .inr (.inl ⟨ch, bs, hs, rfl, rfl, by simp [takeInputByte, hq, hh]⟩)
      | eof => exact .inr (.inr (.inl ⟨hs, rfl, rfl, by simp [takeInputByte, hq, hh]⟩))

theorem lower_toNat (ch : Byte) : (lower ch).toNat = if 65 ≤ ch.toNat ∧ ch.toNat ≤ 90 then ch.toNat + 32 else ch.toNat := by
  unfold lower
  split
  · rw [BitVec.toNat_add]
    simp
    omega
  · rfl

/-! ### ALU results -/

theorem reduced_toNat (n : Nat) : (reduced n).toNat = n % 32768 := by
  simp only [reduced, BitVec.toNat_ofNat]
  omega

/-- A reduced result is no register reference, so Store writes it as it is (41_alu.md R56). -/
@[simp] theorem reResolve_reduced (n : Nat) (s : State) : reResolve (reduced n) s = reduced n :=
  reResolve_of_not_reference s (by rw [reduced_toNat]; omega)

@[simp] theorem reResolve_truthWord (b : Bool) (s : State) : reResolve (truthWord b) s = truthWord b :=
  reResolve_of_not_reference s (by cases b <;> decide)

theorem notWord_toNat (b : Word) : (notWord b).toNat = 32767 - b.toNat % 32768 := by
  have h : (notWord b).toNat = (65535 - b.toNat) % 2 ^ 15 := by
    rw [← Nat.and_two_pow_sub_one_eq_mod]
    simp [notWord]
  have := b.isLt
  omega

@[simp] theorem reResolve_notWord (b : Word) (s : State) : reResolve (notWord b) s = notWord b :=
  reResolve_of_not_reference s (by rw [notWord_toNat]; omega)

/-- A byte stored as a word is no register reference (43_io.md R78). -/
@[simp] theorem reResolve_byte (ch : Byte) (s : State) : reResolve (ch.setWidth 16) s = ch.setWidth 16 :=
  reResolve_of_not_reference s (by have := ch.isLt; simp only [BitVec.toNat_setWidth]; omega)

/-! ### The step's fetch -/

/-- What `fetchInstr` can do: it never waits, and where it finds an instruction it changes nothing. -/
theorem fetchInstr_spec (s : State) :
    (32767 < s.pc.toNat ∧ fetchInstr s = .raised (.invalidAddress .fetch s.pc) s) ∨
    (s.pc.toNat ≤ 32767 ∧ 22 ≤ (s.mem.wordAt s.pc.toNat).toNat ∧
      fetchInstr s = .raised (.invalidOpcode (s.mem.wordAt s.pc.toNat)) (s.setPc (s.pc + 1))) ∨
    (∃ i, s.pc.toNat ≤ 32767 ∧ i.opcode = s.mem.wordAt s.pc.toNat ∧
      decodeWords (s.codeWord s.pc.toNat) (s.codeWord (s.pc.toNat + 1)) (s.codeWord (s.pc.toNat + 2))
        (s.codeWord (s.pc.toNat + 3)) = some i ∧ fetchInstr s = .done i s) := by
  rcases fetchWord_spec s with ⟨hp, e⟩ | ⟨hp, e⟩
  · have hc : s.codeWord s.pc.toNat = s.mem.wordAt s.pc.toNat := if_pos hp
    cases hd : decodeWords (s.codeWord s.pc.toNat) (s.codeWord (s.pc.toNat + 1)) (s.codeWord (s.pc.toNat + 2))
        (s.codeWord (s.pc.toNat + 3)) with
    | none =>
      refine .inr (.inl ⟨hp, by rw [← hc]; exact decodeWords_eq_none.1 hd, ?_⟩)
      rw [fetchInstr, e, Micro.bind_done, hd, hc]
    | some i =>
      refine .inr (.inr ⟨i, hp, by rw [← hc]; exact decodeWords_opcode hd, rfl, ?_⟩)
      rw [fetchInstr, e, Micro.bind_done, hd]
  · exact .inl ⟨hp, by rw [fetchInstr, e, Micro.bind_raised]⟩

end Sys2Proof.Machine
end

