-- ==== Sys2Proof/Laws/Exec.lean ====
section
/-! SUPPORT. The shapes of instructions: what their micro-steps come to when every word is in memory and every value resolves, and
what they keep; what one step can do. -/

namespace Sys2Proof.Machine

/-! ### Walking past the words -/

theorem pc_add_toNat {s : State} (n : Nat) (h : s.pc.toNat + n ≤ 32768) : (s.pc + BitVec.ofNat 16 n).toNat = s.pc.toNat + n := by
  rw [BitVec.toNat_add, BitVec.toNat_ofNat]
  omega

/-- Two fetches in a row. -/
theorem setPc_two (s : State) : (s.setPc (s.pc + 1)).setPc ((s.setPc (s.pc + 1)).pc + 1) = s.setPc (s.pc + 2) := by
  simp [BitVec.add_assoc]

theorem setPc_three (s : State) : (s.setPc (s.pc + 2)).setPc ((s.setPc (s.pc + 2)).pc + 1) = s.setPc (s.pc + 3) := by
  simp [BitVec.add_assoc]

theorem setPc_four (s : State) : (s.setPc (s.pc + 3)).setPc ((s.setPc (s.pc + 3)).pc + 1) = s.setPc (s.pc + 4) := by
  simp [BitVec.add_assoc]

variable {α : Type}

/-- The opcode word of an instruction that fits. -/
theorem fetchWord_bind {s : State} {n : Nat} (h : s.pc.toNat + (n + 1) ≤ 32768) (f : Unit → State → Micro α) :
    (fetchWord s).bind f = f () (s.setPc (s.pc + 1)) := by
  rw [fetchWord_done (by omega), Micro.bind_done]

/-- The first operand word, a value that resolves. -/
theorem valueOperand_bind_first {s : State} {o : ValueOperand} {v : Word} {n : Nat} (h : s.pc.toNat + (n + 2) ≤ 32768)
    (hr : resolve o s = .done v s) (f : Word → State → Micro α) :
    (valueOperand o (s.setPc (s.pc + 1))).bind f = f v (s.setPc (s.pc + 2)) := by
  have hp : (s.setPc (s.pc + 1)).pc.toNat ≤ 32767 := by have := pc_add_toNat (s := s) 1 (by omega); simp at this ⊢; omega
  rw [valueOperand_done hp (resolve_congr hr rfl), Micro.bind_done, setPc_two]

/-- The second operand word, a value that resolves. -/
theorem valueOperand_bind_second {s : State} {o : ValueOperand} {v : Word} {n : Nat} (h : s.pc.toNat + (n + 3) ≤ 32768)
    (hr : resolve o s = .done v s) (f : Word → State → Micro α) :
    (valueOperand o (s.setPc (s.pc + 2))).bind f = f v (s.setPc (s.pc + 3)) := by
  have hp : (s.setPc (s.pc + 2)).pc.toNat ≤ 32767 := by have := pc_add_toNat (s := s) 2 (by omega); simp at this ⊢; omega
  rw [valueOperand_done hp (resolve_congr hr rfl), Micro.bind_done, setPc_three]

/-- The third operand word, a value that resolves. -/
theorem valueOperand_bind_third {s : State} {o : ValueOperand} {v : Word} {n : Nat} (h : s.pc.toNat + (n + 4) ≤ 32768)
    (hr : resolve o s = .done v s) (f : Word → State → Micro α) :
    (valueOperand o (s.setPc (s.pc + 3))).bind f = f v (s.setPc (s.pc + 4)) := by
  have hp : (s.setPc (s.pc + 3)).pc.toNat ≤ 32767 := by have := pc_add_toNat (s := s) 3 (by omega); simp at this ⊢; omega
  rw [valueOperand_done hp (resolve_congr hr rfl), Micro.bind_done, setPc_four]

/-- The first operand word, a raw target. -/
theorem targetOperand_bind {s : State} {a : TargetOperand} {n : Nat} (h : s.pc.toNat + (n + 2) ≤ 32768)
    (f : TargetOperand → State → Micro α) : (targetOperand a (s.setPc (s.pc + 1))).bind f = f a (s.setPc (s.pc + 2)) := by
  have hp : (s.setPc (s.pc + 1)).pc.toNat ≤ 32767 := by have := pc_add_toNat (s := s) 1 (by omega); simp at this ⊢; omega
  rw [targetOperand_done hp, Micro.bind_done, setPc_two]

/-! ### The shapes, when every word is there and every value resolves -/

theorem threeOperands_resolved {eff : Word → Word → State → Micro Word} {a : TargetOperand} {b c : ValueOperand} {s : State}
    {vb vc : Word} (h : s.pc.toNat + 4 ≤ 32768) (hb : resolve b s = .done vb s) (hc : resolve c s = .done vc s) :
    threeOperands eff a b c s = (eff vb vc (s.setPc (s.pc + 4))).bind fun v t => store a v t := by
  rw [threeOperands, fetchWord_bind (n := 3) (by omega), targetOperand_bind (n := 2) (by omega),
    valueOperand_bind_second (n := 1) (by omega) hb, valueOperand_bind_third (n := 0) (by omega) hc]

theorem targetAndValue_resolved {eff : Word → State → Micro Word} {a : TargetOperand} {b : ValueOperand} {s : State} {vb : Word}
    (h : s.pc.toNat + 3 ≤ 32768) (hb : resolve b s = .done vb s) :
    targetAndValue eff a b s = (eff vb (s.setPc (s.pc + 3))).bind fun v t => store a v t := by
  rw [targetAndValue, fetchWord_bind (n := 2) (by omega), targetOperand_bind (n := 1) (by omega),
    valueOperand_bind_second (n := 0) (by omega) hb]

theorem conditionalJump_resolved {taken : Word → Bool} {a b : ValueOperand} {s : State} {va vb : Word}
    (h : s.pc.toNat + 3 ≤ 32768) (ha : resolve a s = .done va s) (hb : resolve b s = .done vb s) :
    conditionalJump taken a b s = .done () (s.setPc (if taken va then vb else s.pc + 3)) := by
  rw [conditionalJump, fetchWord_bind (n := 2) (by omega), valueOperand_bind_first (n := 1) (by omega) ha,
    valueOperand_bind_second (n := 0) (by omega) hb]
  split <;> rfl

/-! ### The shapes, when a value operand's word is 32776..65535 -/

theorem valueOperand_bind_first_invalid {s : State} {w : Word} {n : Nat} (h : s.pc.toNat + (n + 2) ≤ 32768)
    (f : Word → State → Micro α) :
    (valueOperand (.invalid w) (s.setPc (s.pc + 1))).bind f = .raised (.invalidAddress .operand w) (s.setPc (s.pc + 2)) := by
  have hp : (s.setPc (s.pc + 1)).pc.toNat ≤ 32767 := by have := pc_add_toNat (s := s) 1 (by omega); simp at this ⊢; omega
  rw [valueOperand, fetchWord_done hp, Micro.bind_done, setPc_two]
  rfl

theorem valueOperand_bind_second_invalid {s : State} {w : Word} {n : Nat} (h : s.pc.toNat + (n + 3) ≤ 32768)
    (f : Word → State → Micro α) :
    (valueOperand (.invalid w) (s.setPc (s.pc + 2))).bind f = .raised (.invalidAddress .operand w) (s.setPc (s.pc + 3)) := by
  have hp : (s.setPc (s.pc + 2)).pc.toNat ≤ 32767 := by have := pc_add_toNat (s := s) 2 (by omega); simp at this ⊢; omega
  rw [valueOperand, fetchWord_done hp, Micro.bind_done, setPc_three]
  rfl

theorem valueOperand_bind_third_invalid {s : State} {w : Word} {n : Nat} (h : s.pc.toNat + (n + 4) ≤ 32768)
    (f : Word → State → Micro α) :
    (valueOperand (.invalid w) (s.setPc (s.pc + 3))).bind f = .raised (.invalidAddress .operand w) (s.setPc (s.pc + 4)) := by
  have hp : (s.setPc (s.pc + 3)).pc.toNat ≤ 32767 := by have := pc_add_toNat (s := s) 3 (by omega); simp at this ⊢; omega
  rw [valueOperand, fetchWord_done hp, Micro.bind_done, setPc_four]
  rfl

theorem threeOperands_invalid_b {eff : Word → Word → State → Micro Word} {a : TargetOperand} {c : ValueOperand} {s : State}
    {w : Word} (h : s.pc.toNat + 4 ≤ 32768) :
    threeOperands eff a (.invalid w) c s = .raised (.invalidAddress .operand w) (s.setPc (s.pc + 3)) := by
  rw [threeOperands, fetchWord_bind (n := 3) (by omega), targetOperand_bind (n := 2) (by omega),
    valueOperand_bind_second_invalid (n := 1) (by omega)]

theorem threeOperands_invalid_c {eff : Word → Word → State → Micro Word} {a : TargetOperand} {b : ValueOperand} {s : State}
    {vb w : Word} (h : s.pc.toNat + 4 ≤ 32768) (hb : resolve b s = .done vb s) :
    threeOperands eff a b (.invalid w) s = .raised (.invalidAddress .operand w) (s.setPc (s.pc + 4)) := by
  rw [threeOperands, fetchWord_bind (n := 3) (by omega), targetOperand_bind (n := 2) (by omega),
    valueOperand_bind_second (n := 1) (by omega) hb, valueOperand_bind_third_invalid (n := 0) (by omega)]

theorem targetAndValue_invalid {eff : Word → State → Micro Word} {a : TargetOperand} {s : State} {w : Word}
    (h : s.pc.toNat + 3 ≤ 32768) :
    targetAndValue eff a (.invalid w) s = .raised (.invalidAddress .operand w) (s.setPc (s.pc + 3)) := by
  rw [targetAndValue, fetchWord_bind (n := 2) (by omega), targetOperand_bind (n := 1) (by omega),
    valueOperand_bind_second_invalid (n := 0) (by omega)]

theorem conditionalJump_invalid_a {taken : Word → Bool} {b : ValueOperand} {s : State} {w : Word} (h : s.pc.toNat + 3 ≤ 32768) :
    conditionalJump taken (.invalid w) b s = .raised (.invalidAddress .operand w) (s.setPc (s.pc + 2)) := by
  rw [conditionalJump, fetchWord_bind (n := 2) (by omega), valueOperand_bind_first_invalid (n := 1) (by omega)]

theorem conditionalJump_invalid_b {taken : Word → Bool} {a : ValueOperand} {s : State} {va w : Word} (h : s.pc.toNat + 3 ≤ 32768)
    (ha : resolve a s = .done va s) :
    conditionalJump taken a (.invalid w) s = .raised (.invalidAddress .operand w) (s.setPc (s.pc + 3)) := by
  rw [conditionalJump, fetchWord_bind (n := 2) (by omega), valueOperand_bind_first (n := 1) (by omega) ha,
    valueOperand_bind_second_invalid (n := 0) (by omega)]

/-! ### What the shapes keep -/

theorem threeOperands_holds {P : State → Prop} {eff : Word → Word → State → Micro Word} (a : TargetOperand) (b c : ValueOperand)
    {s : State} (hs : P s) (hpc : ∀ t p, P t → P (t.setPc p)) (heff : ∀ u v t, P t → (eff u v t).Holds P)
    (hreg : ∀ i v t, targetRegister a = some i → P t → P (t.setReg i (reResolve v t))) : (threeOperands eff a b c s).Holds P := by
  refine (fetchWord_holds hs hpc).bind fun _ t ht => targetOperand_bind_holds a ht hpc fun t ht => ?_
  refine (valueOperand_holds b ht hpc).bind fun u t ht => (valueOperand_holds c ht hpc).bind fun v t ht => ?_
  exact (heff u v t ht).bind fun v t ht => store_holds a v ht fun i hi => hreg i v t hi ht

theorem targetAndValue_holds {P : State → Prop} {eff : Word → State → Micro Word} (a : TargetOperand) (b : ValueOperand)
    {s : State} (hs : P s) (hpc : ∀ t p, P t → P (t.setPc p)) (heff : ∀ u t, P t → (eff u t).Holds P)
    (hreg : ∀ i v t, targetRegister a = some i → P t → P (t.setReg i (reResolve v t))) : (targetAndValue eff a b s).Holds P := by
  refine (fetchWord_holds hs hpc).bind fun _ t ht => targetOperand_bind_holds a ht hpc fun t ht => ?_
  refine (valueOperand_holds b ht hpc).bind fun u t ht => ?_
  exact (heff u t ht).bind fun v t ht => store_holds a v ht fun i hi => hreg i v t hi ht

theorem conditionalJump_holds {P : State → Prop} (taken : Word → Bool) (a b : ValueOperand) {s : State} (hs : P s)
    (hpc : ∀ t p, P t → P (t.setPc p)) : (conditionalJump taken a b s).Holds P := by
  refine (fetchWord_holds hs hpc).bind fun _ t ht => ?_
  refine (valueOperand_holds a ht hpc).bind fun u t ht => (valueOperand_holds b ht hpc).bind fun v t ht => ?_
  rw [Micro.holds_done]
  split
  · exact hpc t v ht
  · exact ht

theorem moduloEffect_holds {P : State → Prop} (u v : Word) {t : State} (ht : P t) : (moduloEffect u v t).Holds P := by
  unfold moduloEffect
  split <;> exact ht

theorem memRead_holds {P : State → Prop} (u : Word) {t : State} (ht : P t) : (memRead u t).Holds P := by
  rcases memRead_spec u t with ⟨-, e⟩ | ⟨-, e⟩ <;> rw [e] <;> exact ht

/-! ### One step -/

/-- Every instruction answers a next state, whatever the state. -/
theorem exec_isNext (i : Instr) (s : State) : ∃ t, exec i s = .next t := by
  cases i <;> exact complete_isNext s _

/-- What a step that answers a next state did: it started Running, and either the opcode fetch failed, or the opcode was invalid, or
the instruction found ran. -/
theorem step_eq_next {s t : State} (h : step s = .next t) :
    s.status = .running ∧
    ((32767 < s.pc.toNat ∧ t = takeFault (.invalidAddress .fetch s.pc) s.pc s) ∨
     (s.pc.toNat ≤ 32767 ∧ 22 ≤ (s.mem.wordAt s.pc.toNat).toNat ∧
       t = takeFault (.invalidOpcode (s.mem.wordAt s.pc.toNat)) s.pc (s.setPc (s.pc + 1))) ∨
     (∃ i, s.pc.toNat ≤ 32767 ∧ i.opcode = s.mem.wordAt s.pc.toNat ∧ fetchInstr s = .done i s ∧ exec i s = .next t)) := by
  unfold step at h
  split at h
  · simp at h
  · simp at h
  · next hrun =>
    refine ⟨hrun, ?_⟩
    rcases fetchInstr_spec s with ⟨hp, e⟩ | ⟨hp, ho, e⟩ | ⟨i, hp, ho, -, e⟩ <;> rw [e] at h
    · exact .inl ⟨hp, by simpa using h.symm⟩
    · exact .inr (.inl ⟨hp, ho, by simpa using h.symm⟩)
    · exact .inr (.inr ⟨i, hp, ho, e, h⟩)

/-- Word `k` of the bytes a step may fetch is the code word `k` after pc. -/
theorem byteListWord_codeBytes (s : State) (k : Nat) (h : k < 4) : byteListWord s.codeBytes k = s.codeWord (s.pc.toNat + k) := by
  have := byteListWord_bytesOfWords
    [s.codeWord s.pc.toNat, s.codeWord (s.pc.toNat + 1), s.codeWord (s.pc.toNat + 2), s.codeWord (s.pc.toNat + 3)] [] k
    (by simpa using h)
  rw [List.append_nil] at this
  rw [State.codeBytes, this]
  match k, h with
  | 0, _ | 1, _ | 2, _ | 3, _ => rfl

/-- Where the opcode map has an instruction for the code words at pc, the fetch finds it. -/
theorem fetchInstr_of_decodeWords {s : State} {i : Instr} (hp : s.pc.toNat ≤ 32767)
    (h : decodeWords (s.codeWord s.pc.toNat) (s.codeWord (s.pc.toNat + 1)) (s.codeWord (s.pc.toNat + 2))
      (s.codeWord (s.pc.toNat + 3)) = some i) : fetchInstr s = .done i s := by
  rw [fetchInstr, fetchWord_done hp, Micro.bind_done, h]

/-- The step of a Running state that finds an instruction is that instruction. -/
theorem step_of_fetchInstr {s : State} {i : Instr} (hr : s.status = .running) (h : fetchInstr s = .done i s) :
    step s = exec i s := by
  simp [step, hr, h]

end Sys2Proof.Machine
end

