-- ==== Sys2Proof/Laws/Keeps.lean ====
section
/-! SUPPORT. Said once for all instructions: what an instruction and a step can do to the state. A property holds in the next state when
it held before and each of the updates the instruction can make keeps it. -/

namespace Sys2Proof.Machine

/-- The raw target of the twelve instructions that write a register (10_state.md R12). -/
def targetOf : Instr → Option TargetOperand
  | .set a _ | .pop a | .eq a _ _ | .gt a _ _ | .add a _ _ | .mul a _ _ | .modulo a _ _ | .and a _ _ | .or a _ _ | .not a _
  | .rmem a _ | .input a => some a
  | .halt | .push _ | .jmp _ | .jt _ _ | .jf _ _ | .wmem _ _ | .call _ | .ret | .out _ | .noop => none

/-- The updates instruction `i`, started in `s`, can make, each of which keeps `P`. -/
structure Keeps (P : State → Prop) (i : Instr) (s : State) : Prop where
  pc : ∀ u p, P u → P (u.setPc p)
  fault : ∀ u c, P u → P (takeFault c s.pc u)
  reg : ∀ u a j v, targetOf i = some a → targetRegister a = some j → P u → P (u.setReg j (reResolve v u))
  mem : ∀ u a b addr v, i = .wmem a b → addr < 32768 → P u → P (u.setMem (u.mem.setWord addr v))
  push : ∀ u v, (∃ a, i = .push a ∨ i = .call a) → u.config.stackCapacity ≠ some u.stack.length → P u →
    P (u.setStack (u.stack ++ [v]))
  pop : ∀ u st v, ((∃ a, i = .pop a) ∨ i = .ret) → u.stack = st ++ [v] → P u → P (u.setStack st)
  out : ∀ u a ch, i = .out a → P u → P (u.setOutbuf (u.outbuf ++ [ch]))
  take : ∀ u a ch q, i = .input a → u.inq = ch :: q → P u → P (u.setInq q)
  line : ∀ u a ch bs hs, i = .input a → u.inq = [] → u.hostAnswers = .line ch bs :: hs → P u →
    P ((u.setHostAnswers hs).setInq (bs.map lower))
  eof : ∀ u a hs, i = .input a → u.inq = [] → u.hostAnswers = .eof :: hs → P u → P (u.setHostAnswers hs)
  halt : ∀ u, i = .halt → P u → P (u.setStatus .halted)

variable {P : State → Prop} {s t : State}

theorem pushWord_holds {i : Instr} (k : Keeps P i s) (hi : ∃ a, i = .push a ∨ i = .call a) (v : Word) {u : State} (hu : P u) :
    (pushWord v u).Holds P := by
  rcases pushWord_spec v u with ⟨h, e⟩ | ⟨-, e⟩ <;> rw [e]
  · exact k.push u v hi h hu
  · exact hu

theorem popWord_holds {i : Instr} (k : Keeps P i s) (hi : (∃ a, i = .pop a) ∨ i = .ret) {u : State} (hu : P u) :
    (popWord u).Holds P := by
  rcases popWord_spec u with ⟨st, v, h, e⟩ | ⟨-, e⟩ <;> rw [e]
  · exact k.pop u st v hi h hu
  · exact hu

theorem takeInputByte_holds {a : TargetOperand} (k : Keeps P (.input a) s) {u : State} (hu : P u) : (takeInputByte u).Holds P := by
  rcases takeInputByte_spec u with ⟨ch, q, h, e⟩ | ⟨ch, bs, hs, h, hh, e⟩ | ⟨hs, h, hh, e⟩ | ⟨-, -, e⟩ <;> rw [e]
  · exact k.take u a ch q rfl h hu
  · exact k.line u a ch bs hs rfl h hh hu
  · exact k.eof u a hs rfl h hh hu
  · trivial

/-- The next state of an instruction has every property that its updates keep. -/
theorem exec_keeps {i : Instr} (k : Keeps P i s) (h : exec i s = .next t) (hs : P s) : P t := by
  have fault : ∀ c u, P u → P (takeFault c s.pc u) := fun c u hu => k.fault u c hu
  have alu : ∀ (f : Word → Word → Word) (a : TargetOperand) (b c : ValueOperand), targetOf i = some a →
      (threeOperands (fun b c s => .done (f b c) s) a b c s).Holds P := fun f a b c hi =>
    threeOperands_holds a b c hs k.pc (fun _ _ _ ht => ht) fun j v u hj hu => k.reg u a j v hi hj hu
  cases i with
  | halt => exact complete_keeps h hs ((fetchWord_holds hs k.pc).bind fun _ u hu => k.halt u rfl hu) fault
  | noop => exact complete_keeps h hs (fetchWord_holds hs k.pc) fault
  | set a b =>
    exact complete_keeps h hs
      (targetAndValue_holds a b hs k.pc (fun _ _ hu => hu) fun j v u hj hu => k.reg u a j v rfl hj hu) fault
  | not a b =>
    exact complete_keeps h hs
      (targetAndValue_holds a b hs k.pc (fun _ _ hu => hu) fun j v u hj hu => k.reg u a j v rfl hj hu) fault
  | rmem a b =>
    exact complete_keeps h hs
      (targetAndValue_holds a b hs k.pc (fun u _ hu => memRead_holds u hu) fun j v u hj hu => k.reg u a j v rfl hj hu) fault
  | eq a b c => exact complete_keeps h hs (alu eqWord a b c rfl) fault
  | gt a b c => exact complete_keeps h hs (alu gtWord a b c rfl) fault
  | add a b c => exact complete_keeps h hs (alu addWord a b c rfl) fault
  | mul a b c => exact complete_keeps h hs (alu mulWord a b c rfl) fault
  | and a b c => exact complete_keeps h hs (alu andWord a b c rfl) fault
  | or a b c => exact complete_keeps h hs (alu orWord a b c rfl) fault
  | modulo a b c =>
    exact complete_keeps h hs (threeOperands_holds a b c hs k.pc (fun u v _ hu => moduloEffect_holds u v hu)
      fun j v u hj hu => k.reg u a j v rfl hj hu) fault
  | jt a b => exact complete_keeps h hs (conditionalJump_holds _ a b hs k.pc) fault
  | jf a b => exact complete_keeps h hs (conditionalJump_holds _ a b hs k.pc) fault
  | push a =>
    refine complete_keeps h hs ((fetchWord_holds hs k.pc).bind fun _ u hu => ?_) fault
    exact (valueOperand_holds a hu k.pc).bind fun v u hu => pushWord_holds k ⟨a, .inl rfl⟩ v hu
  | pop a =>
    refine complete_keeps h hs ((fetchWord_holds hs k.pc).bind fun _ u hu => ?_) fault
    refine targetOperand_bind_holds a hu k.pc fun u hu => (popWord_holds k (.inl ⟨a, rfl⟩) hu).bind fun v u hu => ?_
    exact store_holds a v hu fun j hj => k.reg u a j v rfl hj hu
  | jmp a =>
    refine complete_keeps h hs ((fetchWord_holds hs k.pc).bind fun _ u hu => ?_) fault
    exact (valueOperand_holds a hu k.pc).bind fun v u hu => k.pc u v hu
  | wmem a b =>
    refine complete_keeps h hs ((fetchWord_holds hs k.pc).bind fun _ u hu => ?_) fault
    refine (valueOperand_holds a hu k.pc).bind fun addr u hu => (valueOperand_holds b hu k.pc).bind fun v u hu => ?_
    rcases memWrite_spec addr v u with ⟨ha, e⟩ | ⟨-, e⟩ <;> rw [e]
    · exact k.mem u a b addr.toNat v rfl (by omega) hu
    · exact hu
  | call a =>
    refine complete_keeps h hs ((fetchWord_holds hs k.pc).bind fun _ u hu => ?_) fault
    refine (valueOperand_holds a hu k.pc).bind fun v u hu => (pushWord_holds k ⟨a, .inr rfl⟩ _ hu).bind fun _ u hu => ?_
    exact k.pc u v hu
  | ret =>
    refine complete_keeps h hs ((fetchWord_holds hs k.pc).bind fun _ u hu => ?_) fault
    exact (popWord_holds k (.inr rfl) hu).bind fun v u hu => k.pc u v hu
  | out a =>
    refine complete_keeps h hs ((fetchWord_holds hs k.pc).bind fun _ u hu => ?_) fault
    exact (valueOperand_holds a hu k.pc).bind fun v u hu => k.out u a (lowByte v) rfl hu
  | input a =>
    refine complete_keeps h hs ((fetchWord_holds hs k.pc).bind fun _ u hu => ?_) fault
    refine targetOperand_bind_holds a hu k.pc fun u hu => (takeInputByte_holds k hu).bind fun v u hu => ?_
    exact store_holds a _ hu fun j hj => k.reg u a j _ rfl hj hu

/-- The next state of a step has every property that the updates of the instruction it finds keep, and that moving pc and taking a
fault keep where it finds none. -/
theorem step_keeps (h : step s = .next t) (hs : P s) (hpc : ∀ u p, P u → P (u.setPc p))
    (hfault : ∀ u c, P u → P (takeFault c s.pc u)) (k : ∀ i, fetchInstr s = .done i s → Keeps P i s) : P t := by
  rcases step_eq_next h with ⟨-, ⟨-, rfl⟩ | ⟨-, -, rfl⟩ | ⟨i, -, -, hi, he⟩⟩
  · exact hfault _ _ hs
  · exact hfault _ _ (hpc _ _ hs)
  · exact exec_keeps (k i hi) he hs

end Sys2Proof.Machine
end

