-- ==== Sys2Proof/Laws/PerInstr.lean ====
section
/-! SUPPORT. The family EncodeShape: every instruction is encoded in as many words as its length says, the first of them its opcode,
which is one of the 22. -/

namespace Sys2Proof.Laws.EncodeShape

/-- The shape of the encoding of one instruction (30_encoding.md R37, R41, R43). -/
def Statement (i : Instr) : Prop :=
  (encode i).length = i.length ∧ (encode i).head? = some i.opcode ∧ i.opcode.toNat ≤ 21

theorem halt : Statement Instr.halt := ⟨rfl, rfl, Nat.le_of_ble_eq_true rfl⟩
theorem set (a : TargetOperand) (b : ValueOperand) : Statement (Instr.set a b) := ⟨rfl, rfl, Nat.le_of_ble_eq_true rfl⟩
theorem push (a : ValueOperand) : Statement (Instr.push a) := ⟨rfl, rfl, Nat.le_of_ble_eq_true rfl⟩
theorem pop (a : TargetOperand) : Statement (Instr.pop a) := ⟨rfl, rfl, Nat.le_of_ble_eq_true rfl⟩
theorem eq (a : TargetOperand) (b : ValueOperand) (c : ValueOperand) : Statement (Instr.eq a b c) := ⟨rfl, rfl, Nat.le_of_ble_eq_true rfl⟩
theorem gt (a : TargetOperand) (b : ValueOperand) (c : ValueOperand) : Statement (Instr.gt a b c) := ⟨rfl, rfl, Nat.le_of_ble_eq_true rfl⟩
theorem jmp (a : ValueOperand) : Statement (Instr.jmp a) := ⟨rfl, rfl, Nat.le_of_ble_eq_true rfl⟩
theorem jt (a : ValueOperand) (b : ValueOperand) : Statement (Instr.jt a b) := ⟨rfl, rfl, Nat.le_of_ble_eq_true rfl⟩
theorem jf (a : ValueOperand) (b : ValueOperand) : Statement (Instr.jf a b) := ⟨rfl, rfl, Nat.le_of_ble_eq_true rfl⟩
theorem add (a : TargetOperand) (b : ValueOperand) (c : ValueOperand) : Statement (Instr.add a b c) := ⟨rfl, rfl, Nat.le_of_ble_eq_true rfl⟩
theorem mul (a : TargetOperand) (b : ValueOperand) (c : ValueOperand) : Statement (Instr.mul a b c) := ⟨rfl, rfl, Nat.le_of_ble_eq_true rfl⟩
theorem modulo (a : TargetOperand) (b : ValueOperand) (c : ValueOperand) : Statement (Instr.modulo a b c) := ⟨rfl, rfl, Nat.le_of_ble_eq_true rfl⟩
theorem and (a : TargetOperand) (b : ValueOperand) (c : ValueOperand) : Statement (Instr.and a b c) := ⟨rfl, rfl, Nat.le_of_ble_eq_true rfl⟩
theorem or (a : TargetOperand) (b : ValueOperand) (c : ValueOperand) : Statement (Instr.or a b c) := ⟨rfl, rfl, Nat.le_of_ble_eq_true rfl⟩
theorem not (a : TargetOperand) (b : ValueOperand) : Statement (Instr.not a b) := ⟨rfl, rfl, Nat.le_of_ble_eq_true rfl⟩
theorem rmem (a : TargetOperand) (b : ValueOperand) : Statement (Instr.rmem a b) := ⟨rfl, rfl, Nat.le_of_ble_eq_true rfl⟩
theorem wmem (a : ValueOperand) (b : ValueOperand) : Statement (Instr.wmem a b) := ⟨rfl, rfl, Nat.le_of_ble_eq_true rfl⟩
theorem call (a : ValueOperand) : Statement (Instr.call a) := ⟨rfl, rfl, Nat.le_of_ble_eq_true rfl⟩
theorem ret : Statement Instr.ret := ⟨rfl, rfl, Nat.le_of_ble_eq_true rfl⟩
theorem out (a : ValueOperand) : Statement (Instr.out a) := ⟨rfl, rfl, Nat.le_of_ble_eq_true rfl⟩
theorem input (a : TargetOperand) : Statement (Instr.input a) := ⟨rfl, rfl, Nat.le_of_ble_eq_true rfl⟩
theorem noop : Statement Instr.noop := ⟨rfl, rfl, Nat.le_of_ble_eq_true rfl⟩

end Sys2Proof.Laws.EncodeShape
end

