-- ==== Sys2Proof/Laws/Run.lean ====
section
/-! SUPPORT. Runs of the machine behind Host/Core.lean, one step at a time. -/

namespace Sys2Proof.Machine

theorem run_zero (s : State) : Host.Core.run core 0 s = .next s := rfl

theorem run_succ_next {s t : State} (k : Nat) (h : step s = .next t) : Host.Core.run core (k + 1) s = Host.Core.run core k t := by
  have hc : core.step s = .next t := h
  simp only [Host.Core.run, hc]

theorem run_succ_fault {s : State} {r : Fault} (k : Nat) (h : step s = .fault r) : Host.Core.run core (k + 1) s = .fault r := by
  have hc : core.step s = .fault r := h
  simp only [Host.Core.run, hc]

theorem run_succ_refused {s : State} {r : Refusal} (k : Nat) (h : step s = .refused r) :
    Host.Core.run core (k + 1) s = .refused r := by
  have hc : core.step s = .refused r := h
  simp only [Host.Core.run, hc]

/-- A run that goes on for `k + 1` steps took a first step and went on for `k`. -/
theorem run_succ_eq_next {s u : State} {k : Nat} (h : Host.Core.run core (k + 1) s = .next u) :
    ∃ t, step s = .next t ∧ Host.Core.run core k t = .next u := by
  cases hs : step s with
  | next t => exact ⟨t, rfl, by rw [← run_succ_next k hs]; exact h⟩
  | fault r => rw [run_succ_fault k hs] at h; cases h
  | refused r => rw [run_succ_refused k hs] at h; cases h

end Sys2Proof.Machine
end

