-- ==== Sys2Proof/Tests/Slice0.lean ====
section
/-! SUPPORT. Tests of the model's own: ill-formed terms refused, words written out from spec/30_encoding.md, one step of each
instruction from the vectors of spec/95_test_vectors.md (named in each test), and a witness for the hypotheses of each obligation. -/

namespace Sys2Proof.Tests

open Sys2Proof Sys2Proof.Machine

/-! ### Helpers -/

/-- The next state of one step, where there is one. -/
def next (s : State) : Option State :=
  match step s with
  | .next t => some t
  | _ => none

theorem step_of_next {s t : State} (h : next s = some t) : step s = .next t := by
  unfold next at h
  split at h
  · rename_i u hu
    rw [hu]
    exact congrArg Host.Outcome.next (Option.some.inj h)
  · cases h

theorem not_faulted_of_running {t : State} (h : t.status = .running) (r : FaultRecord) : t.status ≠ .faulted r := by
  rw [h]
  exact fun h => nomatch h

/-- The reset state with the words `ws` at address `p` on and pc at `p`. -/
def program (p : Word) (ws : List Word) : State :=
  (State.reset.setPc p).setMem (Memory.setWords [] p.toNat ws)

/-- One step of the words `ws` at address 0, from the reset state as `f` changes it. -/
def one (ws : List Word) (f : State → State) : Option State := next (f (program 0 ws))

/-! ### Ill-formed terms -/

theorem test_wf_literal_above_32767_refused :
    (ValueOperand.literal 32768).wf = false ∧ (Instr.push (.literal 65535)).wf = false ∧ (ValueOperand.literal 32767).wf = true := by decide

theorem test_wf_value_invalid_below_32776_refused :
    (ValueOperand.invalid 5).wf = false ∧ (Instr.jt (.literal 0) (.invalid 32775)).wf = false ∧
    (ValueOperand.invalid 32776).wf = true := by decide

theorem test_wf_target_invalid_that_names_a_register_refused :
    (TargetOperand.invalid 7).wf = false ∧ (Instr.pop (.invalid 32768)).wf = false ∧ (TargetOperand.invalid 32775).wf = false ∧
    (TargetOperand.invalid 8).wf = true ∧ (TargetOperand.invalid 32776).wf = true := by decide

theorem test_wf_each_operand_place_is_checked :
    (Instr.add (.invalid 0) (.literal 1) (.literal 1)).wf = false ∧ (Instr.add (.direct 0) (.literal 40000) (.literal 1)).wf = false ∧
    (Instr.add (.direct 0) (.literal 1) (.invalid 1)).wf = false ∧ (Instr.set (.direct 0) (.invalid 1)).wf = false ∧
    (Instr.wmem (.invalid 1) (.literal 0)).wf = false ∧ (Instr.input (.invalid 3)).wf = false ∧
    (Instr.out (.literal 32768)).wf = false := by decide

/-! ### Decoding: words written out from 30_encoding.md R37, R41 and the byte order of 20_memory.md R25 -/

theorem test_decode_data_movement :
    decode [0x01, 0x00, 0x00, 0x80, 0x05, 0x00] = .ok (.set (.register 0) (.literal 5), []) ∧
    decode [0x02, 0x00, 0x03, 0x80, 0x03, 0x00] = .ok (.push (.register 3), [0x03, 0x00]) ∧
    decode [0x03, 0x00, 0x07, 0x00] = .ok (.pop (.direct 7), []) ∧
    decode [0x0F, 0x00, 0x01, 0x80, 0x0C, 0x00] = .ok (.rmem (.register 1) (.literal 12), []) ∧
    decode [0x10, 0x00, 0x64, 0x00, 0x00, 0x80] = .ok (.wmem (.literal 100) (.register 0), []) := by decide

theorem test_decode_alu :
    decode [0x04, 0x00, 0x01, 0x80, 0x00, 0x80, 0x0A, 0x00] = .ok (.eq (.register 1) (.register 0) (.literal 10), []) ∧
    decode [0x05, 0x00, 0x00, 0x80, 0x04, 0x00, 0x03, 0x00] = .ok (.gt (.register 0) (.literal 4) (.literal 3), []) ∧
    decode [0x09, 0x00, 0x00, 0x80, 0xFF, 0x7F, 0x01, 0x00] = .ok (.add (.register 0) (.literal 32767) (.literal 1), []) ∧
    decode [0x0A, 0x00, 0x00, 0x80, 0x01, 0x80, 0x06, 0x00] = .ok (.mul (.register 0) (.register 1) (.literal 6), []) ∧
    decode [0x0B, 0x00, 0x08, 0x00, 0x05, 0x00, 0x00, 0x00] = .ok (.modulo (.invalid 8) (.literal 5) (.literal 0), []) ∧
    decode [0x0C, 0x00, 0x03, 0x80, 0x01, 0x80, 0x02, 0x80] = .ok (.and (.register 3) (.register 1) (.register 2), []) ∧
    decode [0x0D, 0x00, 0x00, 0x80, 0x55, 0x55, 0xAA, 0x2A] = .ok (.or (.register 0) (.literal 21845) (.literal 10922), []) ∧
    decode [0x0E, 0x00, 0x07, 0x80, 0x08, 0x80] = .ok (.not (.register 7) (.invalid 32776), []) := by decide

theorem test_decode_control :
    decode [0x00, 0x00, 0x00, 0x00] = .ok (.halt, [0x00, 0x00]) ∧
    decode [0x06, 0x00, 0xE8, 0x03] = .ok (.jmp (.literal 1000), []) ∧
    decode [0x07, 0x00, 0x00, 0x80, 0x32, 0x00] = .ok (.jt (.register 0) (.literal 50), []) ∧
    decode [0x08, 0x00, 0x32, 0x00, 0x06, 0x80] = .ok (.jf (.literal 50) (.register 6), []) ∧
    decode [0x11, 0x00, 0xC8, 0x00] = .ok (.call (.literal 200), []) ∧
    decode [0x12, 0x00] = .ok (.ret, []) ∧
    decode [0x15, 0x00] = .ok (.noop, []) := by decide

theorem test_decode_input_output :
    decode [0x13, 0x00, 0x41, 0x01] = .ok (.out (.literal 321), []) ∧
    decode [0x14, 0x00, 0x00, 0x80] = .ok (.input (.register 0), []) := by decide

/-- R42; and a list that ends inside an instruction, or inside its first word. -/
theorem test_decode_refuses :
    decode [0x16, 0x00, 0x00, 0x00] = .error (.invalidOpcode 22) ∧ decode [0x00, 0x80] = .error (.invalidOpcode 32768) ∧
    decode [0xFF, 0xFF] = .error (.invalidOpcode 65535) ∧ decode [0x00, 0x01] = .error (.invalidOpcode 256) ∧
    decode [0x09, 0x00, 0x00, 0x80, 0x00, 0x80, 0xFF] = .error .truncated ∧ decode [0x00] = .error .truncated ∧
    decode [] = .error .truncated := by decide

/-- The word `add r0 32767 1` of 41_alu.md R59, as spec/opcode_table.json numbers bits; and rows whose operand words have no bits. -/
theorem test_decodeTableWord :
    decodeTableWord 64 0x00017FFF80000009 = some (.add (.register 0) (.literal 32767) (.literal 1)) ∧
    decodeTableWord 16 9 = some (.add (.direct 0) (.literal 0) (.literal 0)) ∧
    decodeTableWord 16 0 = some .halt ∧ decodeTableWord 16 22 = none := by decide

/-- A fetched table word runs: at reset, and at a pc where the instruction would not fit. -/
theorem test_withFetchWord_runs :
    (next (State.reset.withFetchWord 16 9)).map (fun t => (t.status, t.pc)) = some (.running, 4) ∧
    (next ((State.reset.setPc 32766).withFetchWord 48 0x000580030001)).map (fun t => (t.reg 3, t.pc)) = some (5, 3) ∧
    (next ((State.reset.setPc 32766).withFetchWord 32 0x00410013)).map (fun t => (t.outbuf, t.pc)) = some ([65], 32768) := by decide

/-! ### One step of each instruction: the vectors of 95_test_vectors.md L2 -/

/-- L2-E12. -/
theorem test_halt_at_the_last_address :
    (next (program 32767 [0])).map (fun t => (t.status, t.pc)) = some (.halted, 32768) := by decide

/-- L2-C16: no further step. -/
theorem test_halt_is_terminal :
    (one [0] id).bind next = none := by decide

/-- L2-E5. -/
theorem test_set_direct_target :
    (one [1, 3, 9] id).map (fun t => (t.reg 3, t.pc)) = some (9, 3) := by decide

/-- L2-E2. -/
theorem test_set_reads_register :
    (one [1, 32768, 32775] (·.setReg 7 123)).map (fun t => (t.reg 0, t.pc)) = some (123, 3) := by decide

/-- L2-D2. -/
theorem test_push_wide_register :
    (one [2, 32768] (·.setReg 0 40000)).map (fun t => (t.stack, t.pc)) = some ([40000], 2) := by decide

/-- L2-D16. -/
theorem test_push_full_stack :
    (one [2, 1] (fun s => ({ s with config := ⟨some 2⟩ } : State).setStack [1, 2])).map (fun t => (t.status, t.stack)) =
      some (.faulted ⟨.stackOverflow, 0⟩, [1, 2]) := by decide

/-- L2-D5. -/
theorem test_pop_reResolves :
    (one [3, 32769] (fun s => (s.setStack [32768]).setReg 0 55)).map (fun t => (t.reg 1, t.stack)) = some (55, []) := by decide

/-- L2-D8. -/
theorem test_pop_precedes_target_check :
    (one [3, 8] (·.setStack [5])).map (fun t => (t.status, t.stack)) =
      some (.faulted ⟨.invalidAddress .target 8, 0⟩, []) := by decide

/-- L2-A24. -/
theorem test_eq_wide :
    (one [4, 32768, 32769, 32770] (fun s => (s.setReg 1 40000).setReg 2 40000)).map (fun t => (t.reg 0, t.pc)) = some (1, 4) := by decide

/-- L2-A25. -/
theorem test_eq_clears :
    (one [4, 32768, 5, 6] (·.setReg 0 7)).map (fun t => t.reg 0) = some 0 := by decide

/-- L2-A26. -/
theorem test_gt_is_unsigned :
    (one [5, 32768, 32769, 32767] (·.setReg 1 40000)).map (fun t => (t.reg 0, t.pc)) = some (1, 4) := by decide

/-- L2-A27. -/
theorem test_gt_is_strict :
    (one [5, 32768, 3, 3] (·.setReg 0 7)).map (fun t => t.reg 0) = some 0 := by decide

/-- L2-C2, L2-E15. -/
theorem test_jmp_beyond_memory :
    (one [6, 32768] (·.setReg 0 40000)).map (fun t => (t.status, t.pc)) = some (.running, 40000) := by decide

/-- L2-C1. -/
theorem test_jmp_literal : (one [6, 1000] id).map (fun t => t.pc) = some 1000 := by decide

/-- L2-C5. -/
theorem test_jt_wide_condition : (one [7, 32768, 50] (·.setReg 0 40000)).map (fun t => t.pc) = some 50 := by decide

/-- L2-C6. -/
theorem test_jt_resolves_target_when_not_taken :
    (one [7, 0, 32776] id).map (fun t => t.status) = some (.faulted ⟨.invalidAddress .operand 32776, 0⟩) := by decide

/-- L2-C7. -/
theorem test_jf_taken : (one [8, 32768, 50] id).map (fun t => t.pc) = some 50 := by decide

/-- L2-C8. -/
theorem test_jf_not_taken : (one [8, 32768, 50] (·.setReg 0 1)).map (fun t => t.pc) = some 3 := by decide

/-- L2-A2. -/
theorem test_add_wraps :
    (one [9, 32768, 32769, 32770] (fun s => (s.setReg 1 65535).setReg 2 65535)).map (fun t => t.reg 0) = some 32766 := by decide

/-- L2-A4. -/
theorem test_add_source_is_target :
    (one [9, 32768, 32768, 32768] (·.setReg 0 20000)).map (fun t => (t.reg 0, t.pc)) = some (7232, 4) := by decide

/-- L2-A6. -/
theorem test_mul_reduces : (one [10, 32768, 200, 200] id).map (fun t => t.reg 0) = some 7232 := by decide

/-- L2-A7. -/
theorem test_mul_wide : (one [10, 32768, 32769, 32769] (·.setReg 1 65535)).map (fun t => t.reg 0) = some 1 := by decide

/-- L2-A9. -/
theorem test_modulo_wide :
    (one [11, 32768, 32769, 32770] (fun s => (s.setReg 1 50000).setReg 2 60000)).map (fun t => t.reg 0) = some 17232 := by decide

/-- L2-A13. -/
theorem test_modulo_zero_before_target :
    (one [11, 8, 5, 0] id).map (fun t => t.status) = some (.faulted ⟨.divideByZero, 0⟩) := by decide

/-- L2-A14. -/
theorem test_and_reduces : (one [12, 32768, 32769, 32769] (·.setReg 1 65535)).map (fun t => t.reg 0) = some 32767 := by decide

/-- L2-A16. -/
theorem test_and_disjoint : (one [12, 32768, 21845, 10922] id).map (fun t => t.reg 0) = some 0 := by decide

/-- L2-A17. -/
theorem test_or_reduces : (one [13, 32768, 32769, 1] (·.setReg 1 32776)).map (fun t => t.reg 0) = some 9 := by decide

/-- L2-A18. -/
theorem test_or_disjoint : (one [13, 32768, 21845, 10922] id).map (fun t => t.reg 0) = some 32767 := by decide

/-- L2-A22. -/
theorem test_not_wide : (one [14, 32768, 32769] (·.setReg 1 40000)).map (fun t => (t.reg 0, t.pc)) = some (25535, 3) := by decide

/-- L2-A23. -/
theorem test_not_literal : (one [14, 32768, 21845] id).map (fun t => t.reg 0) = some 10922 := by decide

/-- L2-D9. -/
theorem test_rmem_reResolves :
    (one [15, 32768, 100] (fun s => (s.setMem (s.mem.setWord 100 32770)).setReg 2 77)).map (fun t => (t.reg 0, t.pc)) =
      some (77, 3) := by decide

/-- L2-D11. -/
theorem test_rmem_beyond_memory :
    (one [15, 32768, 32769] (·.setReg 1 40000)).map (fun t => t.status) =
      some (.faulted ⟨.invalidAddress .memory 40000, 0⟩) := by decide

/-- L2-D13. -/
theorem test_wmem_stores_unreduced :
    (one [16, 200, 32768] (·.setReg 0 40000)).map (fun t => (t.mem.wordAt 200, t.pc)) = some (40000, 3) := by decide

/-- L2-D15. -/
theorem test_wmem_own_opcode :
    (one [16, 0, 99] id).map (fun t => (t.mem.wordAt 0, t.pc, t.status)) = some (99, 3, .running) := by decide

/-- L2-C10. -/
theorem test_call_at_the_last_address :
    (next (program 32766 [17, 200])).map (fun t => (t.stack, t.pc)) = some ([32768], 200) := by decide

/-- L2-C11. -/
theorem test_call_fault_pushes_nothing :
    (one [17, 32776] id).map (fun t => (t.status, t.stack)) =
      some (.faulted ⟨.invalidAddress .operand 32776, 0⟩, []) := by decide

/-- L2-C14. -/
theorem test_ret_does_not_resolve :
    (one [18] (·.setStack [7, 32768])).map (fun t => (t.pc, t.stack)) = some (32768, [7]) := by decide

/-- L3-7, second step. -/
theorem test_ret_empty_stack :
    (next (program 3 [18])).map (fun t => (t.status, t.pc)) = some (.faulted ⟨.stackUnderflow, 3⟩, 4) := by decide

/-- L2-I2. -/
theorem test_out_low_byte : (one [19, 32768] (·.setReg 0 40000)).map (fun t => (t.outbuf, t.pc)) = some ([64], 2) := by decide

/-- L2-I4. -/
theorem test_out_fault_emits_nothing :
    (one [19, 32776] id).map (fun t => (t.status, t.outbuf)) = some (.faulted ⟨.invalidAddress .operand 32776, 0⟩, []) := by decide

/-- L2-I5. -/
theorem test_input_refills_lower_cased :
    (one [20, 32768] (·.hostReplies (.line 65 [66, 10]))).map (fun t => (t.reg 0, t.inq, t.hostAnswers)) =
      some (97, [98, 10], []) := by decide

/-- L2-I8. -/
theorem test_input_bad_target_takes_the_byte :
    (one [20, 8] (·.hostReplies (.line 97 [10]))).map (fun t => (t.status, t.inq)) =
      some (.faulted ⟨.invalidAddress .target 8, 0⟩, [10]) := by decide

/-- L2-C15. -/
theorem test_noop : (next (program 7 [21])).map (fun t => (t.pc, t.status)) = some (8, .running) := by decide

/-- L2-E13. -/
theorem test_noop_at_the_last_address :
    (next (program 32767 [21])).map (fun t => (t.pc, t.status)) = some (32768, .running) := by decide

/-! ### Faults of the fetch and the load: L2-E and L2-R -/

/-- L2-E11. -/
theorem test_invalid_opcode : (one [65535] id).map (fun t => t.status) = some (.faulted ⟨.invalidOpcode 65535, 0⟩) := by decide

/-- L2-E14. -/
theorem test_operand_beyond_memory :
    (next (program 32766 [1, 32768])).map (fun t => t.status) = some (.faulted ⟨.invalidAddress .fetch 32768, 32766⟩) := by decide

/-- L2-E15. -/
theorem test_fetch_beyond_memory :
    (next (State.reset.setPc 40000)).map (fun t => t.status) = some (.faulted ⟨.invalidAddress .fetch 40000, 40000⟩) := by decide

/-- L2-E16. -/
theorem test_operands_before_target :
    (one [9, 8, 32776, 1] id).map (fun t => t.status) = some (.faulted ⟨.invalidAddress .operand 32776, 0⟩) := by decide

/-- L2-R2, and L2-R3. -/
theorem test_image_little_endian :
    (State.resetWith .default [0x34, 0x12]).mem.wordAt 0 = 4660 ∧
    (State.resetWith .default [0xFF, 0xFF, 0x00, 0x80]).mem.wordAt 1 = 32768 := by decide

/-- L2-R4. -/
theorem test_image_odd_length :
    (State.resetWith .default [1, 2, 3]).status = .faulted ⟨.malformedImage 3, 0⟩ ∧ (State.resetWith .default [1, 2, 3]).mem = [] := by
  decide

/-- The codes of 60_exceptions.md R79. -/
theorem test_fault_codes :
    FaultCause.code (.malformedImage 3) = (1, none) ∧ FaultCause.code (.invalidOpcode 22) = (2, none) ∧
    FaultCause.code (.invalidAddress .operand 32776) = (3, some 0) ∧ FaultCause.code (.invalidAddress .target 8) = (3, some 1) ∧
    FaultCause.code (.invalidAddress .memory 40000) = (3, some 2) ∧ FaultCause.code (.invalidAddress .fetch 32768) = (3, some 3) ∧
    FaultCause.code .stackUnderflow = (4, none) ∧ FaultCause.code .divideByZero = (5, none) ∧
    FaultCause.code .endOfInput = (6, none) ∧ FaultCause.code .stackOverflow = (7, none) := by decide

/-! ### Witnesses: a state and operands that meet the hypotheses of each obligation, at the ends of each clause's range -/

/-- Reset with pc at `p`, register 0 at 40000 (a value no literal has) and register 7 at 32767. -/
def wide (p : Word) : State := ((State.reset.setPc p).setReg 0 40000).setReg 7 32767

/-- Both ways to write a target that names a register, a target that names none on each side of the references, and an operand word
that does not resolve. -/
abbrev OperandClauses : Prop :=
  targetRegister (.ofWord 7) = some 7 ∧ targetRegister (.ofWord 32768) = some 0 ∧ TargetOperand.ofWord 8 = .invalid 8 ∧
  TargetOperand.ofWord 32776 = .invalid 32776 ∧ ValueOperand.ofWord 32776 = .invalid 32776

/-- Values as an operand resolves to them: a literal at each end, a register above every literal. -/
abbrev ValueClauses (s : State) : Prop :=
  resolve (.literal 0) s = .done 0 s ∧ resolve (.literal 32767) s = .done 32767 s ∧ resolve (.register 0) s = .done 40000 s ∧
  resolve (.register 7) s = .done 32767 s

/-- What the statements about eq, gt, add, mul, modulo, and, or assume, at the last pc their four words fit at. -/
abbrev ThreeOperandsMet : Prop := (wide 32764).fits 4 ∧ ¬ (wide 32765).fits 4 ∧ OperandClauses ∧ ValueClauses (wide 32764)

/-- What the statements about the instructions of three words assume, at the last pc they fit at. -/
abbrev TwoOperandsMet : Prop := (wide 32765).fits 3 ∧ ¬ (wide 32766).fits 3 ∧ OperandClauses ∧ ValueClauses (wide 32765)

/-- What the statements about the instructions of two words assume, at the last pc they fit at. -/
abbrev OneOperandMet : Prop := (wide 32766).fits 2 ∧ ¬ (wide 32767).fits 2 ∧ OperandClauses ∧ ValueClauses (wide 32766)

theorem witness_DecodeOfEncodeIsTheInstruction :
    (Instr.add (.direct 7) (.literal 32767) (.register 7)).wf = true ∧ (Instr.add (.invalid 8) (.literal 0) (.invalid 32776)).wf = true ∧
    (Instr.set (.invalid 32767) (.invalid 65535)).wf = true ∧ Instr.halt.wf = true := by decide

theorem witness_EncodeOfDecodeIsTheBytes :
    decode [0x09, 0x00, 0x07, 0x00, 0xFF, 0x7F, 0x08, 0x80, 0x2A] = .ok (.add (.direct 7) (.literal 32767) (.invalid 32776), [0x2A]) ∧
    decode [0x15, 0x00] = .ok (.noop, []) := by decide

theorem witness_IllegalOpcodesRaiseInvalidOpcode :
    22 ≤ (22 : Word).toNat ∧ 22 ≤ (32768 : Word).toNat ∧ 22 ≤ (65535 : Word).toNat ∧
    (program 32767 [22]).status = .running ∧ (program 32767 [22]).pc.toNat ≤ 32767 ∧
    22 ≤ ((program 32767 [22]).mem.wordAt (program 32767 [22]).pc.toNat).toNat := by decide

theorem witness_StepRunsTheDecodedInstruction :
    (program 32767 [0]).status = .running ∧ (program 32767 [0]).pc.toNat ≤ 32767 ∧
    decode (program 32767 [0]).codeBytes = .ok (.halt, [0, 0, 0, 0, 0, 0]) ∧
    decode (program 0 [9, 7, 32767, 32776]).codeBytes = .ok (.add (.direct 7) (.literal 32767) (.invalid 32776), []) := by decide

theorem witness_StepRunsTheEncodedInstruction :
    let s := program 32764 [9, 7, 32767, 32776]
    let i := Instr.add (.direct 7) (.literal 32767) (.invalid 32776)
    s.status = .running ∧ i.wf = true ∧ s.fits i.length ∧
    ∀ (k : Nat) (h : k < (encode i).length), s.mem.wordAt (s.pc.toNat + k) = (encode i)[k] := by decide

theorem witness_FetchBeyondMemoryFaults :
    (wide 32768).status = .running ∧ 32767 < (wide 32768).pc.toNat ∧ 32767 < (wide 65535).pc.toNat ∧
    fetchInstr (program 32765 [9, 7, 32768]) = .done (.add (.direct 7) (.register 0) (.literal 0)) (program 32765 [9, 7, 32768]) ∧
    ¬ (program 32765 [9, 7, 32768]).fits 4 ∧
    fetchInstr (program 32766 [7, 32776]) = .done (.jt (.invalid 32776) (.literal 0)) (program 32766 [7, 32776]) ∧
    ¬ (program 32766 [7, 32776]).fits 3 := by decide

theorem witness_FaultedIsTerminal :
    ∃ t r, Host.Core.run core 1 (program 3 [18]) = .next t ∧ t.status = .faulted r :=
  ⟨_, ⟨.stackUnderflow, 3⟩, rfl, rfl⟩

theorem witness_HaltedIsTerminalAndOnlyHaltSetsIt :
    (∃ s : State, s.status = .halted) ∧ ∃ t, step (program 32767 [0]) = .next t ∧ t.status = .halted :=
  ⟨⟨State.reset.setStatus .halted, rfl⟩, _, rfl, rfl⟩

theorem witness_RunningStepAnswersNext : (wide 65535).status = .running := by decide

theorem witness_FaultRecordNamesTheInstruction :
    ∃ t r, step (program 32766 [1, 32768]) = .next t ∧ t.status = .faulted r :=
  ⟨_, ⟨.invalidAddress .fetch 32768, 32766⟩, rfl, rfl⟩

theorem witness_ResolveFollowsTheWordRanges :
    (0 : Word).toNat ≤ 32767 ∧ (32767 : Word).toNat ≤ 32767 ∧ (32768 : Word).toNat = 32768 + (0 : Fin 8).val ∧
    (32775 : Word).toNat = 32768 + (7 : Fin 8).val ∧ 32776 ≤ (32776 : Word).toNat ∧ 32776 ≤ (65535 : Word).toNat := by decide

theorem witness_StoreFollowsTheTargetRanges :
    ((0 : Word).toNat = (0 : Fin 8).val ∧ (7 : Word).toNat = (7 : Fin 8).val ∧ (32768 : Word).toNat = 32768 + (0 : Fin 8).val ∧
      (32775 : Word).toNat = 32768 + (7 : Fin 8).val) ∧
    ((32767 : Word).toNat < 32768 ∧ 32775 < (32776 : Word).toNat) ∧
    ((8 ≤ (8 : Word).toNat ∧ (8 : Word).toNat ≤ 32767) ∧ (8 ≤ (32767 : Word).toNat ∧ (32767 : Word).toNat ≤ 32767) ∧
      32776 ≤ (32776 : Word).toNat ∧ 32776 ≤ (65535 : Word).toNat) := by decide

theorem witness_HaltFollowsItsRule : (wide 32767).fits 1 := by decide

theorem witness_SetFollowsItsRule :
    TwoOperandsMet ∧ resolve (.register 1) ((wide 32765).setReg 1 32775) = .done 32775 ((wide 32765).setReg 1 32775) ∧
    (32775 : Word).toNat = 32768 + (7 : Fin 8).val ∧ 32775 < (40000 : Word).toNat ∧ (32767 : Word).toNat < 32768 := by decide

theorem witness_PushFollowsItsRule :
    OneOperandMet ∧ (wide 32766).config.stackCapacity ≠ some (wide 32766).stack.length ∧
    ({ wide 32766 with config := ⟨some 0⟩ } : State).config.stackCapacity = some (wide 32766).stack.length ∧
    ({ wide 32766 with config := ⟨some 1⟩ } : State).config.stackCapacity ≠ some (wide 32766).stack.length := by decide

theorem witness_PopFollowsItsRule :
    OneOperandMet ∧ (wide 32766).stack = [] ∧ ((wide 32766).setStack [4, 32767]).stack = [4] ++ [32767] ∧
    ((wide 32766).setStack [32768]).stack = [] ++ [32768] ∧ (32768 : Word).toNat = 32768 + (0 : Fin 8).val ∧
    (32767 : Word).toNat < 32768 ∧ 32775 < (32776 : Word).toNat := by decide

theorem witness_EqFollowsItsRule : ThreeOperandsMet := by decide

theorem witness_GtFollowsItsRule : ThreeOperandsMet ∧ (32767 : Word).toNat < (40000 : Word).toNat := by decide

theorem witness_JmpFollowsItsRule :
    OneOperandMet ∧ (wide 32766).status = .running ∧ 32767 < (40000 : Word).toNat ∧
    resolve (.register 1) ((wide 32766).setReg 1 32776) = .done 32776 ((wide 32766).setReg 1 32776) := by decide

theorem witness_JtFollowsItsRule : TwoOperandsMet := by decide

theorem witness_JfFollowsItsRule : TwoOperandsMet := by decide

theorem witness_AddFollowsItsRule : ThreeOperandsMet := by decide

theorem witness_MulFollowsItsRule : ThreeOperandsMet := by decide

theorem witness_ModuloFollowsItsRule : ThreeOperandsMet ∧ resolve (.literal 1) (wide 32764) = .done 1 (wide 32764) := by decide

theorem witness_AndFollowsItsRule : ThreeOperandsMet := by decide

theorem witness_OrFollowsItsRule : ThreeOperandsMet := by decide

theorem witness_NotFollowsItsRule : TwoOperandsMet ∧ (32767 : Word).toNat ≤ 32767 := by decide

theorem witness_RmemFollowsItsRule :
    TwoOperandsMet ∧ 32767 < (40000 : Word).toNat ∧ (32767 : Word).toNat ≤ 32767 ∧
    (Memory.setWord [] 32767 32768).wordAt 32767 = 32768 ∧ (Memory.setWord [] 32767 32776).wordAt 32767 = 32776 ∧
    (wide 32765).mem.wordAt 32767 = 0 := by decide

theorem witness_WmemFollowsItsRule :
    TwoOperandsMet ∧ 32767 < (40000 : Word).toNat ∧ (32767 : Word).toNat ≤ 32767 := by decide

theorem witness_CallFollowsItsRule :
    OneOperandMet ∧ (wide 32766).config.stackCapacity ≠ some (wide 32766).stack.length ∧
    ({ wide 32766 with config := ⟨some 0⟩ } : State).config.stackCapacity = some (wide 32766).stack.length := by decide

theorem witness_RetFollowsItsRule :
    (wide 32767).fits 1 ∧ (wide 32767).stack = [] ∧ ((wide 32767).setStack [4, 32768]).stack = [4] ++ [32768] := by decide

theorem witness_OutFollowsItsRule : OneOperandMet ∧ (wide 32767).pc.toNat = 32767 := by decide

theorem witness_InputFollowsItsRule :
    OneOperandMet ∧ (wide 32766).inq = [] ∧ ((wide 32766).hostReplies .eof).hostAnswers = .eof :: [] ∧
    ((wide 32766).hostReplies (.line 90 [10])).hostAnswers = .line 90 [10] :: [] ∧
    ((wide 32766).setInq [255]).inq = 255 :: [] := by decide

theorem witness_InputWaitsForTheHost :
    OneOperandMet ∧ (wide 32766).inq = [] ∧ (wide 32766).hostAnswers = [] ∧ (program 32766 [20, 7]).waits :=
  ⟨by decide, by decide, by decide, by decide, by decide, ⟨.direct 7, by decide⟩, by decide, by decide⟩

theorem witness_NoopFollowsItsRule : (wide 32767).fits 1 := by decide

theorem witness_FirstUnresolvableOperandIsReported :
    (wide 32764).fits (Instr.add (.invalid 8) (.literal 1) (.invalid 32776)).length ∧
    (valueOperands (.add (.invalid 8) (.literal 1) (.invalid 32776))).filterMap unresolvable = 32776 :: [] ∧
    (valueOperands (.wmem (.invalid 65535) (.invalid 32776))).filterMap unresolvable = 65535 :: [32776] := by decide

theorem witness_RegisterResultFrame :
    ∃ t, exec (.eq (.direct 7) (.register 0) (.literal 1)) (wide 32764) = .next t ∧
      Instr.eq (.direct 7) (.register 0) (.literal 1) ∈
        [Instr.set (.direct 7) (.register 0), .eq (.direct 7) (.register 0) (.literal 1)] ∧
      targetRegister (.direct 7) ≠ some 6 ∧ targetRegister (.invalid 8) ≠ some 7 :=
  ⟨_, rfl, by decide, by decide, by decide⟩

theorem witness_PopFrame : ∃ t, exec (.pop (.direct 7)) ((wide 32766).setStack [4, 5]) = .next t ∧ targetRegister (.direct 7) ≠ some 6 :=
  ⟨_, rfl, by decide⟩

theorem witness_InputFrame :
    ∃ t, exec (.input (.direct 7)) ((wide 32766).setInq [97]) = .next t ∧ targetRegister (.direct 7) ≠ some 6 ∧
      ((wide 32766).setInq [97]).inq ≠ [] :=
  ⟨_, rfl, by decide, by decide⟩

theorem witness_WmemFrame :
    (∃ t, exec (.wmem (.literal 32767) (.register 0)) (wide 32765) = .next t) ∧
    resolve (.literal 32767) (wide 32765) = .done 32767 (wide 32765) ∧ (65533 ≠ 2 * (32767 : Word).toNat) ∧
    (∃ t, exec (.wmem (.register 0) (.literal 1)) (wide 32765) = .next t) ∧ 32767 < (40000 : Word).toNat ∧
    (∃ t, exec (.wmem (.invalid 32776) (.literal 1)) (wide 32765) = .next t) ∧
    (∃ t, exec (.wmem (.literal 5) (.invalid 65535)) (wide 32765) = .next t) :=
  ⟨⟨_, rfl⟩, by decide, by decide, ⟨_, rfl⟩, by decide, ⟨_, rfl⟩, ⟨_, rfl⟩⟩

theorem witness_ControlAndOutFrame :
    (∃ t, exec (.jt (.literal 1) (.literal 2)) (wide 32765) = .next t) ∧ (∃ t, exec .halt (wide 32767) = .next t) ∧
    ∃ t, exec (.out (.literal 5)) (wide 32766) = .next t :=
  ⟨⟨_, rfl⟩, ⟨_, rfl⟩, ⟨_, rfl⟩⟩

theorem witness_StackFrame :
    (∃ t, exec (.push (.register 0)) (wide 32766) = .next t) ∧ (∃ t, exec (.call (.literal 3)) (wide 32766) = .next t) ∧
    ∃ t, exec .ret ((wide 32767).setStack [6]) = .next t :=
  ⟨⟨_, rfl⟩, ⟨_, rfl⟩, ⟨_, rfl⟩⟩

theorem witness_ImageWordsAreLittleEndian :
    2 * 0 + 1 < [0x34, (0x12 : Byte)].length ∧ [0x34, (0x12 : Byte)].length % 2 = 0 ∧
    2 * 32767 + 1 < (List.replicate 65536 (1 : Byte)).length ∧ (List.replicate 65536 (1 : Byte)).length % 2 = 0 ∧
    (List.replicate 65536 (1 : Byte)).length ≤ 65536 := by
  refine ⟨by decide, by decide, ?_, ?_, ?_⟩ <;> rw [List.length_replicate]
  · decide

theorem witness_ImageIsValidatedAtReset :
    (List.replicate 65537 (1 : Byte)).length % 2 = 1 ∧ 65536 < (List.replicate 65538 (1 : Byte)).length ∧
    (List.replicate 65538 (1 : Byte)).length % 2 = 0 ∧ (List.replicate 65536 (1 : Byte)).length % 2 = 0 ∧
    (List.replicate 65536 (1 : Byte)).length ≤ 65536 ∧ ([] : List Byte).length ≤ 2 * 0 ∧
    (List.replicate 65536 (1 : Byte)).length ≤ 2 * 32768 := by
  simp only [List.length_replicate]
  decide

/-- The invariant at a state with a full stack of capacity 1 and a register above every reference. -/
theorem witness_StepKeepsTheInvariant :
    let s : State := (({ program 32767 [21] with config := ⟨some 1⟩ } : State).setStack [32768]).setReg 0 32776
    s.Inv ∧ ∃ t, step s = .next t :=
  ⟨⟨by decide, by decide, by decide⟩, _, rfl⟩

theorem witness_OutputHistoryDoesNotInfluence : ∃ t, step (program 32766 [19, 65]) = .next t := ⟨_, rfl⟩

theorem witness_MemoryChangesOnlyAtWmem :
    ∃ t, step (program 32764 [16, 32767, 6]) = .next t ∧ t.mem ≠ (program 32764 [16, 32767, 6]).mem :=
  ⟨_, rfl, by decide⟩

theorem witness_OutputGrowsOnlyAtOut : ∃ t, step (program 32766 [19, 65]) = .next t := ⟨_, rfl⟩

theorem witness_OneRegisterWrittenPerStep :
    ∃ t, step (program 32765 [1, 7, 5]) = .next t ∧ t.reg 7 ≠ (program 32765 [1, 7, 5]).reg 7 :=
  ⟨_, rfl, by decide⟩

theorem witness_HostIsAskedOnlyByInputOnAnEmptyQueue :
    let s := (program 32766 [20, 7]).hostReplies (.line 65 [10])
    ∃ t, step s = .next t ∧ t.hostAnswers ≠ s.hostAnswers :=
  ⟨_, rfl, by decide⟩

theorem witness_ProgramCounterPassesTheInstruction :
    let s := (program 32766 [20, 7]).setInq [65]
    ∃ t i, step s = .next t ∧ fetchInstr s = .done i s ∧ ¬ s.waits ∧ ∀ r, t.status ≠ .faulted r :=
  ⟨_, .input (.direct 7), rfl, by decide, fun h => absurd h.2.2.2.1 (by decide), not_faulted_of_running rfl⟩

/-- A wmem at 32764 that stores `v` at address 32767, the last one, and a running state at 32767 with the memory it leaves. -/
theorem witness_FetchSeesTheStoredWord :
    let s := program 32764 []
    s.fits 3 ∧ (32767 : Word).toNat ≤ 32767 ∧ resolve (.literal 32767) s = .done 32767 s ∧ 22 ≤ (22 : Word).toNat ∧
    ∀ v ∈ [(0 : Word), 21, 22], resolve (.literal v) s = .done v s ∧
      ∃ t u : State, exec (.wmem (.literal 32767) (.literal v)) s = .next t ∧ u.mem = t.mem ∧ u.status = .running ∧ u.pc = 32767 := by
  refine ⟨by decide, by decide, by decide, by decide, fun v _ => ⟨rfl, _, ?_, rfl, ?_⟩⟩
  · exact ((program 32764 []).setMem (Memory.setWord [] 32767 v)).setPc 32767
  · exact ⟨rfl, rfl, rfl⟩

/-- The same, where the stored word is the opcode word of an instruction (noop at 32767) and where it is an operand word (out at 32766). -/
theorem witness_FetchSeesTheStoredWord_opcode_and_operand :
    (Instr.noop.wf = true ∧ ((program 0 []).setPc 32767).fits Instr.noop.length ∧
      ∀ (k : Nat) (h : k < (encode .noop).length),
        (if ((program 0 []).setPc 32767).pc.toNat + k = (32767 : Word).toNat then (21 : Word)
          else (program 0 []).mem.wordAt (32767 + k)) = (encode .noop)[k]) ∧
    ((Instr.out (.literal 65)).wf = true ∧ (program 32766 [19]).fits (Instr.out (.literal 65)).length ∧
      ∀ (k : Nat) (h : k < (encode (.out (.literal 65))).length),
        (if (program 32766 [19]).pc.toNat + k = (32767 : Word).toNat then (65 : Word)
          else (program 32766 [19]).mem.wordAt (32766 + k)) = (encode (.out (.literal 65)))[k]) := by decide

theorem witness_CallThenRetReturns :
    (wide 32766).fits 2 ∧
    ∃ t, exec (.call (.literal 32767)) (wide 32766) = .next t ∧ (∀ r, t.status ≠ .faulted r) ∧ t.fits 1 :=
  ⟨by decide, _, rfl, not_faulted_of_running rfl, by decide⟩

theorem witness_PushThenPopRestores :
    (wide 32764).fits 4 ∧ registerReference ((wide 32764).reg 0) = none ∧ (∀ r, (wide 32764).status ≠ .faulted r) ∧
    ∃ t, exec (.push (.register 0)) (wide 32764) = .next t ∧ ∀ r, t.status ≠ .faulted r :=
  ⟨by decide, by decide, not_faulted_of_running rfl, _, rfl, not_faulted_of_running rfl⟩

theorem witness_JmpToItselfRunsForever :
    let s := program 32766 [6, 32766]
    s.status = .running ∧ s.fits 2 ∧ s.mem.wordAt s.pc.toNat = 6 ∧
    resolve (.ofWord (s.mem.wordAt (s.pc.toNat + 1))) s = .done s.pc s := by decide

end Sys2Proof.Tests
end

/-! SUPPORT. What one step keeps (10_state.md): the frame of every instruction said once, the invariant, the words an instruction walks
past; and from these the statements of the family. -/

namespace Sys2Proof.Machine

section StateLemmas

variable {s t u : State} {i : Instr}

/-! ### The frame of an instruction -/

/-- The register an instruction can write: the one its raw target names (10_state.md R12). -/
def writtenRegister (i : Instr) : Option (Fin 8) := (targetOf i).bind targetRegister

/-- The instructions that push or pop (10_state.md R16). -/
def usesStack : Instr → Bool
  | .push _ | .pop _ | .call _ | .ret => true
  | _ => false

/-- What instruction `i`, started in `s`, leaves unchanged in `u`: each part of the state but pc is as in `s`, unless `i` is one of the
instructions that can change that part; the status is as in `s`, or Halted by halt, or Faulted with ipc the pc of `s`. -/
structure Frame (i : Instr) (s u : State) : Prop where
  reg : ∀ j, writtenRegister i ≠ some j → u.reg j = s.reg j
  mem : (∀ a b, i ≠ .wmem a b) → u.mem = s.mem
  stack : usesStack i = false → u.stack = s.stack
  inq : (∀ a, i ≠ .input a) → u.inq = s.inq
  outbuf : (∀ a, i ≠ .out a) → u.outbuf = s.outbuf
  hostAnswers : (∀ a, i ≠ .input a) → u.hostAnswers = s.hostAnswers
  config : u.config = s.config
  status : u.status = s.status ∨ (i = .halt ∧ u.status = .halted) ∨ ∃ c, u.status = .faulted ⟨c, s.pc⟩

theorem Frame.refl (i : Instr) (s : State) : Frame i s s :=
  ⟨fun _ _ => rfl, fun _ => rfl, fun _ => rfl, fun _ => rfl, fun _ => rfl, fun _ => rfl, rfl, .inl rfl⟩

theorem Frame.setReg {a : TargetOperand} {j : Fin 8} (h : Frame i s u) (ha : targetOf i = some a) (hj : targetRegister a = some j)
    (v : Word) : Frame i s (u.setReg j v) :=
  { h with
    reg := fun k hk => by
      have hne : j ≠ k := fun e => hk (by simp [writtenRegister, ha, hj, e])
      rw [State.reg_setReg_other u v hne]
      exact h.reg k hk }

theorem Frame.setStack (h : Frame i s u) (hi : usesStack i = true) (st : List Word) : Frame i s (u.setStack st) :=
  { h with stack := fun hn => by simp [hi] at hn }

/-- Each update an instruction can make stays within its frame. -/
theorem frame_keeps (i : Instr) (s : State) : Keeps (Frame i s) i s where
  pc _ _ h := { h with }
  fault _ c h := { h with status := .inr (.inr ⟨c, rfl⟩) }
  reg _ _ _ _ ha hj h := h.setReg ha hj _
  mem _ a b _ _ hi _ h := { h with mem := fun hn => absurd hi (hn a b) }
  push _ _ hi _ h := h.setStack (by obtain ⟨a, rfl | rfl⟩ := hi <;> rfl) _
  pop _ _ _ hi _ h := h.setStack (by obtain ⟨a, rfl⟩ | rfl := hi <;> rfl) _
  out _ a _ hi h := { h with outbuf := fun hn => absurd hi (hn a) }
  take _ a _ _ hi _ h := { h with inq := fun hn => absurd hi (hn a) }
  line _ a _ _ _ hi _ _ h :=
    { h with inq := fun hn => absurd hi (hn a), hostAnswers := fun hn => absurd hi (hn a) }
  eof _ a _ hi _ _ h := { h with hostAnswers := fun hn => absurd hi (hn a) }
  halt _ hi h := { h with status := .inr (.inl ⟨hi, rfl⟩) }

theorem exec_frame (h : exec i s = .next t) : Frame i s t := exec_keeps (frame_keeps i s) h (Frame.refl i s)

/-- What one step can do, in terms of the frame: it found an instruction and ran it within its frame, or it found none, and nothing but
pc and the status, which is Faulted, changed. -/
theorem step_frame (h : step s = .next t) :
    (∃ i, s.pc.toNat ≤ 32767 ∧ i.opcode = s.mem.wordAt s.pc.toNat ∧ fetchInstr s = .done i s ∧ exec i s = .next t ∧ Frame i s t) ∨
    (∃ c p, t = takeFault c s.pc (s.setPc p)) := by
  obtain ⟨-, ⟨-, rfl⟩ | ⟨-, -, rfl⟩ | ⟨i, hp, ho, hf, he⟩⟩ := step_eq_next h
  · exact .inr ⟨_, s.pc, rfl⟩
  · exact .inr ⟨_, _, rfl⟩
  · exact .inl ⟨i, hp, ho, hf, he, exec_frame he⟩

/-! ### The invariant -/

/-- Neither pc nor the queue, the output, the status or the host's answers is part of the invariant. -/
theorem State.Inv.congr (h : s.Inv) (hm : t.mem = s.mem) (hx : t.x = s.x) (hs : t.stack = s.stack) (hc : t.config = s.config) :
    t.Inv where
  mem_wf := hm ▸ h.mem_wf
  registers_lawful j := by simpa [State.reg, hx] using h.registers_lawful j
  stack_fits n hn := hs ▸ h.stack_fits n (hc ▸ hn)

theorem State.Inv.setReg_reResolve (h : s.Inv) (j : Fin 8) (v : Word) : (s.setReg j (reResolve v s)).Inv where
  mem_wf := h.mem_wf
  registers_lawful k := by
    rw [State.reg_setReg]
    split
    · exact registerReference_reResolve h.registers_lawful v
    · exact h.registers_lawful k
  stack_fits := h.stack_fits

theorem State.Inv.setWord (h : s.Inv) {a : Nat} (ha : a < 32768) (v : Word) : (s.setMem (s.mem.setWord a v)).Inv where
  mem_wf := Memory.wf_setWord h.mem_wf ha v
  registers_lawful := h.registers_lawful
  stack_fits := h.stack_fits

/-- A push that finds the stack not full leaves it within its capacity. -/
theorem State.Inv.push (h : s.Inv) (hc : s.config.stackCapacity ≠ some s.stack.length) (v : Word) :
    (s.setStack (s.stack ++ [v])).Inv where
  mem_wf := h.mem_wf
  registers_lawful := h.registers_lawful
  stack_fits n hn := by
    have hle : s.stack.length ≤ n := h.stack_fits n hn
    have hne : s.stack.length ≠ n := fun e => hc (e ▸ hn)
    simp only [State.setStack_stack, List.length_append, List.length_singleton]
    omega

theorem State.Inv.pop {st : List Word} {v : Word} (h : s.Inv) (hs : s.stack = st ++ [v]) : (s.setStack st).Inv where
  mem_wf := h.mem_wf
  registers_lawful := h.registers_lawful
  stack_fits n hn := by
    have hle : s.stack.length ≤ n := h.stack_fits n hn
    simp only [hs, List.length_append, List.length_singleton] at hle
    simp only [State.setStack_stack]
    omega

theorem inv_keeps (i : Instr) (s : State) : Keeps State.Inv i s where
  pc _ _ h := h.congr rfl rfl rfl rfl
  fault _ _ h := h.congr rfl rfl rfl rfl
  reg _ _ j v _ _ h := h.setReg_reResolve j v
  mem _ _ _ _ v _ ha h := h.setWord ha v
  push _ v _ hc h := h.push hc v
  pop _ _ _ _ hs h := h.pop hs
  out _ _ _ _ h := h.congr rfl rfl rfl rfl
  take _ _ _ _ _ _ h := h.congr rfl rfl rfl rfl
  line _ _ _ _ _ _ _ _ h := h.congr rfl rfl rfl rfl
  eof _ _ _ _ _ _ h := h.congr rfl rfl rfl rfl
  halt _ _ h := h.congr rfl rfl rfl rfl

theorem step_keeps_inv (h : step s = .next t) (hs : s.Inv) : t.Inv :=
  step_keeps h hs (inv_keeps .noop s).pc (inv_keeps .noop s).fault fun i _ => inv_keeps i s

theorem reset_reg (j : Fin 8) : State.reset.reg j = 0 := by
  simp [State.reg, State.reset]

/-- The reset state has the invariant whatever the parameters: its stack is empty. -/
theorem inv_reset_config (cfg : Config) : ({ State.reset with config := cfg } : State).Inv where
  mem_wf := Memory.wf_nil
  registers_lawful j := (congrArg registerReference (reset_reg j)).trans (by decide)
  stack_fits n _ := Nat.zero_le n

/-- A malformed image leaves memory as reset has it; a well-formed one is laid out in the canonical form. -/
theorem inv_resetWith (cfg : Config) (image : List Byte) : (State.resetWith cfg image).Inv := by
  have hreset := inv_reset_config cfg
  unfold State.resetWith
  split
  · exact hreset.congr rfl rfl rfl rfl
  · next hwf => exact ⟨wf_imageCells image 0 (by omega), hreset.registers_lawful, hreset.stack_fits⟩

/-! ### Walking past the words of an instruction -/

/-- The micro-steps do not wait, and where they take effect `Q` holds of the state they leave. -/
def Micro.Ends {α : Type} (Q : State → Prop) : Micro α → Prop
  | .done _ u => Q u
  | .raised _ _ => True
  | .waiting => False

theorem Micro.Ends.bind {α β : Type} {Q R : State → Prop} {m : Micro α} {f : α → State → Micro β} (hm : m.Ends Q)
    (hf : ∀ a u, Q u → (f a u).Ends R) : (m.bind f).Ends R := by
  cases m with
  | done a u => exact hf a u hm
  | raised c u => trivial
  | waiting => exact hm

/-- `u` is `s` after the fetch of `n` words, all of them in memory. -/
def Walked (n : Nat) (s u : State) : Prop := s.fits n ∧ u = s.setPc (s.pc + BitVec.ofNat 16 n)

/-- pc stands `n` words after that of `s`. -/
def Past (n : Nat) (s u : State) : Prop := u.pc.toNat = s.pc.toNat + n

theorem Walked.past {n : Nat} (h : Walked n s u) : Past n s u := by
  obtain ⟨hfit, rfl⟩ := h
  exact pc_add_toNat n hfit

/-- The fetch of the opcode word. -/
theorem fetchWord_walked_one (s : State) : (fetchWord s).Ends (Walked 1 s) := by
  rcases fetchWord_spec s with ⟨hp, e⟩ | ⟨-, e⟩ <;> rw [e]
  · exact ⟨by simp only [State.fits]; omega, rfl⟩
  · trivial

/-- One more word fetched. -/
theorem fetchWord_walked {n : Nat} (h : Walked n s u) : (fetchWord u).Ends (Walked (n + 1) s) := by
  have hpast : u.pc.toNat = s.pc.toNat + n := h.past
  rcases fetchWord_spec u with ⟨hp, e⟩ | ⟨-, e⟩ <;> rw [e]
  · have hpc : u.pc + 1 = s.pc + BitVec.ofNat 16 (n + 1) := by
      rw [h.2, State.setPc_pc, BitVec.ofNat_add, BitVec.add_assoc]
      rfl
    refine ⟨by simp only [State.fits]; omega, ?_⟩
    rw [hpc, h.2, State.setPc_setPc]
  · trivial

theorem valueOperand_walked {n : Nat} (o : ValueOperand) (h : Walked n s u) : (valueOperand o u).Ends (Walked (n + 1) s) := by
  refine (fetchWord_walked h).bind fun _ u hu => ?_
  rcases resolve_spec o u with ⟨v, e, -⟩ | ⟨w, -, e⟩ <;> rw [e]
  · exact hu
  · trivial

theorem targetOperand_walked {n : Nat} (a : TargetOperand) (h : Walked n s u) : (targetOperand a u).Ends (Walked (n + 1) s) :=
  (fetchWord_walked h).bind fun _ _ hu => hu

/-! ### The effects leave pc where it is -/

theorem store_past {n : Nat} (a : TargetOperand) (v : Word) (h : Past n s u) : (store a v u).Ends (Past n s) := by
  rcases store_spec a v u with ⟨j, -, e⟩ | ⟨w, -, e⟩ <;> rw [e]
  · exact h
  · trivial

theorem memRead_past {n : Nat} (addr : Word) (h : Past n s u) : (memRead addr u).Ends (Past n s) := by
  rcases memRead_spec addr u with ⟨-, e⟩ | ⟨-, e⟩ <;> rw [e]
  · exact h
  · trivial

theorem memWrite_past {n : Nat} (addr v : Word) (h : Past n s u) : (memWrite addr v u).Ends (Past n s) := by
  rcases memWrite_spec addr v u with ⟨-, e⟩ | ⟨-, e⟩ <;> rw [e]
  · exact h
  · trivial

theorem moduloEffect_past {n : Nat} (v w : Word) (h : Past n s u) : (moduloEffect v w u).Ends (Past n s) := by
  unfold moduloEffect
  split
  · trivial
  · exact h

theorem pushWord_past {n : Nat} (v : Word) (h : Past n s u) : (pushWord v u).Ends (Past n s) := by
  rcases pushWord_spec v u with ⟨-, e⟩ | ⟨-, e⟩ <;> rw [e]
  · exact h
  · trivial

theorem popWord_past {n : Nat} (h : Past n s u) : (popWord u).Ends (Past n s) := by
  rcases popWord_spec u with ⟨st, v, -, e⟩ | ⟨-, e⟩ <;> rw [e]
  · exact h
  · trivial

/-- An input does not wait where the queue holds a byte or the host has answered. -/
theorem takeInputByte_past {n : Nat} (hw : u.inq = [] → u.hostAnswers ≠ []) (h : Past n s u) :
    (takeInputByte u).Ends (Past n s) := by
  rcases takeInputByte_spec u with ⟨ch, q, -, e⟩ | ⟨ch, bs, hs, -, -, e⟩ | ⟨hs, -, -, e⟩ | ⟨hq, hh, e⟩ <;> rw [e]
  · exact h
  · exact h
  · trivial
  · exact hw hq hh

theorem threeOperands_past {eff : Word → Word → State → Micro Word} (a : TargetOperand) (b c : ValueOperand)
    (heff : ∀ v w u, Past 4 s u → (eff v w u).Ends (Past 4 s)) : (threeOperands eff a b c s).Ends (Past 4 s) := by
  refine (fetchWord_walked_one s).bind fun _ u hu => (targetOperand_walked a hu).bind fun a u hu => ?_
  refine (valueOperand_walked b hu).bind fun v u hu => (valueOperand_walked c hu).bind fun w u hu => ?_
  exact (heff v w u hu.past).bind fun v u hu => store_past a v hu

theorem targetAndValue_past {eff : Word → State → Micro Word} (a : TargetOperand) (b : ValueOperand)
    (heff : ∀ v u, Past 3 s u → (eff v u).Ends (Past 3 s)) : (targetAndValue eff a b s).Ends (Past 3 s) := by
  refine (fetchWord_walked_one s).bind fun _ u hu => (targetOperand_walked a hu).bind fun a u hu => ?_
  refine (valueOperand_walked b hu).bind fun v u hu => (heff v u hu.past).bind fun v u hu => store_past a v hu

/-! ### pc after an instruction -/

/-- The instructions that override pc (42_control.md R65). -/
def transfersControl : Instr → Bool
  | .jmp _ | .jt _ _ | .jf _ _ | .call _ | .ret => true
  | _ => false

/-- An instruction that does not wait and leaves no Faulted state took effect. -/
theorem complete_ends {Q : State → Prop} {m : Micro Unit} (h : complete s m = .next t) (hm : m.Ends Q)
    (hf : ∀ r, t.status ≠ .faulted r) : Q t := by
  rcases complete_eq_next.1 h with rfl | ⟨c, u, rfl, rfl⟩ | ⟨rfl, -⟩
  · exact hm
  · exact absurd rfl (hf ⟨c, s.pc⟩)
  · exact hm.elim

/-- 10_state.md R14: pc is past the words of an instruction that transfers no control, where it neither faults nor waits. -/
theorem exec_past (h : exec i s = .next t) (hi : transfersControl i = false) (hf : ∀ r, t.status ≠ .faulted r)
    (hw : ∀ a, i = .input a → s.fits 2 → s.inq = [] → s.hostAnswers ≠ []) : Past i.length s t := by
  have alu : ∀ (f : Word → Word → Word) (a : TargetOperand) (b c : ValueOperand),
      (threeOperands (fun b c s => .done (f b c) s) a b c s).Ends (Past 4 s) := fun f a b c =>
    threeOperands_past a b c fun _ _ _ hu => hu
  cases i with
  | jmp a => cases hi
  | jt a b => cases hi
  | jf a b => cases hi
  | call a => cases hi
  | ret => cases hi
  | halt => exact complete_ends h ((fetchWord_walked_one s).bind fun _ u hu => hu.past) hf
  | noop => exact (complete_ends h (fetchWord_walked_one s) hf).past
  | set a b => exact complete_ends h (targetAndValue_past a b fun _ _ hu => hu) hf
  | not a b => exact complete_ends h (targetAndValue_past a b fun _ _ hu => hu) hf
  | rmem a b => exact complete_ends h (targetAndValue_past a b fun addr _ hu => memRead_past addr hu) hf
  | eq a b c => exact complete_ends h (alu eqWord a b c) hf
  | gt a b c => exact complete_ends h (alu gtWord a b c) hf
  | add a b c => exact complete_ends h (alu addWord a b c) hf
  | mul a b c => exact complete_ends h (alu mulWord a b c) hf
  | and a b c => exact complete_ends h (alu andWord a b c) hf
  | or a b c => exact complete_ends h (alu orWord a b c) hf
  | modulo a b c => exact complete_ends h (threeOperands_past a b c fun v w _ hu => moduloEffect_past v w hu) hf
  | push a =>
    refine complete_ends h ((fetchWord_walked_one s).bind fun _ u hu => ?_) hf
    exact (valueOperand_walked a hu).bind fun v u hu => pushWord_past v hu.past
  | pop a =>
    refine complete_ends h ((fetchWord_walked_one s).bind fun _ u hu => ?_) hf
    refine (targetOperand_walked a hu).bind fun a u hu => (popWord_past hu.past).bind fun v u hu => ?_
    exact store_past a v hu
  | wmem a b =>
    refine complete_ends h ((fetchWord_walked_one s).bind fun _ u hu => ?_) hf
    refine (valueOperand_walked a hu).bind fun addr u hu => (valueOperand_walked b hu).bind fun v u hu => ?_
    exact memWrite_past addr v hu.past
  | out a =>
    refine complete_ends h ((fetchWord_walked_one s).bind fun _ u hu => ?_) hf
    exact (valueOperand_walked a hu).bind fun v u hu => hu.past
  | input a =>
    refine complete_ends h ((fetchWord_walked_one s).bind fun _ u hu => ?_) hf
    refine (targetOperand_walked a hu).bind fun b u hu => ?_
    have hready : u.inq = [] → u.hostAnswers ≠ [] := by
      obtain ⟨hfit, rfl⟩ := hu
      exact hw a rfl hfit
    exact (takeInputByte_past hready hu.past).bind fun ch u hu => store_past b _ hu

/-! ### The twelve instructions with a raw target, and the ten of them that touch neither stack nor queue -/

theorem opcode_of_targetOf {a : TargetOperand} (h : targetOf i = some a) :
    i.opcode.toNat ∈ [1, 3, 4, 5, 9, 10, 11, 12, 13, 14, 15, 20] := by
  cases i
  case halt | push | jmp | jt | jf | wmem | call | ret | out | noop => cases h
  all_goals simp [Instr.opcode]

/-- An instruction whose only effect is the register its target names. -/
structure OnlyWritesRegister (i : Instr) (a : TargetOperand) : Prop where
  target : targetOf i = some a
  stack : usesStack i = false
  input : ∀ b, i ≠ .input b

theorem onlyWritesRegister_of_mem {a : TargetOperand} {b c : ValueOperand}
    (h : i ∈ [Instr.set a b, .eq a b c, .gt a b c, .add a b c, .mul a b c, .modulo a b c, .and a b c, .or a b c, .not a b,
      .rmem a b]) : OnlyWritesRegister i a := by
  simp only [List.mem_cons, List.not_mem_nil, or_false] at h
  rcases h with rfl | rfl | rfl | rfl | rfl | rfl | rfl | rfl | rfl | rfl <;> exact ⟨rfl, rfl, nofun⟩

/-! ### halt -/

theorem step_of_halted (h : s.status = .halted) : step s = .fault .notEnabledHalted := by simp [step, h]

theorem exec_halt (h : s.pc.toNat ≤ 32767) : exec .halt s = .next ((s.setPc (s.pc + 1)).setStatus .halted) := by
  simp [exec, execHalt, fetchWord_done h]

end StateLemmas

/-! ### The statements -/

/-- Settles O48: each update an instruction can make keeps the invariant. -/
theorem stepKeepsTheInvariant : Obligations.StepKeepsTheInvariant := fun _ _ hs h => step_keeps_inv h hs

/-- Settles O10: within its frame, only halt can set the status to Halted, and its opcode word is 0. -/
theorem haltedIsTerminalAndOnlyHaltSetsIt : Obligations.HaltedIsTerminalAndOnlyHaltSetsIt := by
  refine ⟨fun s k hs => run_succ_fault k (step_of_halted hs), fun s t h ht => ?_⟩
  have hrun : s.status = .running := (step_eq_next h).1
  rcases step_frame h with ⟨i, hp, ho, -, he, hfr⟩ | ⟨c, p, rfl⟩
  · rcases hfr.status with hs | ⟨rfl, -⟩ | ⟨c, hs⟩
    · rw [ht, hrun] at hs
      cases hs
    · rw [exec_halt hp] at he
      exact ⟨hp, ho.symm, (Host.Outcome.next.inj he).symm⟩
    · rw [ht] at hs
      cases hs
  · cases ht

/-- Settles O12: a fault is taken with the pc the step started at, and a step starts Running. -/
theorem faultRecordNamesTheInstruction : Obligations.FaultRecordNamesTheInstruction := by
  intro s t r h ht
  have hrun : s.status = .running := (step_eq_next h).1
  rcases step_frame h with ⟨i, -, -, -, -, hfr⟩ | ⟨c, p, rfl⟩
  · rcases hfr.status with hs | ⟨-, hs⟩ | ⟨c, hs⟩ <;> rw [ht] at hs
    · rw [hrun] at hs
      cases hs
    · cases hs
    · cases hs
      rfl
  · cases ht
    rfl

/-- Settles O39, from the frame of these instructions. -/
theorem registerResultFrame : Obligations.RegisterResultFrame := by
  intro a b c s t i hi h
  have hfr := exec_frame h
  obtain ⟨htarget, hstack, hinput⟩ := onlyWritesRegister_of_mem hi
  have hmem : t.mem = s.mem := hfr.mem fun x y e => by subst e; cases htarget
  have hout : t.outbuf = s.outbuf := hfr.outbuf fun x e => by subst e; cases htarget
  refine ⟨fun j hj => hfr.reg j (by simpa [writtenRegister, htarget] using hj), fun k => by rw [hmem], hmem, hfr.stack hstack,
    hfr.inq hinput, hout, hfr.hostAnswers hinput, hfr.config, ?_⟩
  rcases hfr.status with hs | ⟨rfl, -⟩ | hs
  · exact .inl hs
  · cases htarget
  · exact .inr hs

/-- Settles O50: a malformed image leaves the reset memory, a well-formed one is laid out in the canonical form. -/
theorem loadedImageHasTheInvariant : Obligations.LoadedImageHasTheInvariant := inv_resetWith

/-- Settles O52: memory is outside the frame of wmem alone. -/
theorem memoryChangesOnlyAtWmem : Obligations.MemoryChangesOnlyAtWmem := by
  intro s t h hne
  rcases step_frame h with ⟨i, -, ho, hf, -, hfr⟩ | ⟨c, p, rfl⟩
  · by_cases hi : ∃ a b, i = .wmem a b
    · obtain ⟨a, b, rfl⟩ := hi
      exact ⟨ho.symm, a, b, hf⟩
    · exact absurd (hfr.mem fun a b e => hi ⟨a, b, e⟩) hne
  · exact absurd rfl hne

/-- Settles O54: the register is the one the target names; where there is none, every register is in the frame. -/
theorem oneRegisterWrittenPerStep : Obligations.OneRegisterWrittenPerStep := by
  intro s t h
  rcases step_frame h with ⟨i, -, ho, -, -, hfr⟩ | ⟨c, p, rfl⟩
  · cases hw : writtenRegister i with
    | none =>
      have hall : ∀ j, t.reg j = s.reg j := fun j => hfr.reg j (by simp [hw])
      exact ⟨0, fun j _ => hall j, fun hne => absurd (hall 0) hne⟩
    | some k =>
      obtain ⟨a, ha, -⟩ := Option.bind_eq_some_iff.1 hw
      exact ⟨k, fun j hj => hfr.reg j (by simpa [hw] using Ne.symm hj), fun _ => ho ▸ opcode_of_targetOf ha⟩
  · exact ⟨0, fun _ _ => rfl, fun hne => absurd rfl hne⟩

/-- Settles O56: each instruction that transfers no control fetches its words one after another and moves pc no further. -/
theorem programCounterPassesTheInstruction : Obligations.ProgramCounterPassesTheInstruction := by
  intro s t i h hf hw hnf
  have hrun : s.status = .running := (step_eq_next h).1
  have he : exec i s = .next t := step_of_fetchInstr hrun hf ▸ h
  have hready : ∀ a, i = .input a → s.fits 2 → s.inq = [] → s.hostAnswers ≠ [] := fun a hi hfit hq hh =>
    hw ⟨hrun, hfit, ⟨a, hi ▸ hf⟩, hq, hh⟩
  have hpast : transfersControl i = false → t.pc.toNat = s.pc.toNat + i.length := fun hi => exec_past he hi hnf hready
  cases i
  case jmp | jt | jf | call | ret => trivial
  all_goals exact hpast rfl

/-- Settles O45: the fields of the reset state as the model writes them; the empty image lays out no cell. -/
theorem resetStateIsTheSpecs : Obligations.ResetStateIsTheSpecs :=
  ⟨Memory.wordAt_nil, reset_reg, rfl, rfl, rfl, rfl, rfl, rfl, rfl, rfl⟩

/-- Settles O49: the reset state is reset with the default parameters. -/
theorem resetHasTheInvariant : Obligations.ResetHasTheInvariant := inv_reset_config Config.default

end Sys2Proof.Machine

/-! SUPPORT. Memory as the image and wmem leave it, and as every later fetch reads it (20_memory.md): the words of an instruction that
stand at pc are the instruction the step runs; and from these the statements of the family. -/

namespace Sys2Proof.Machine

section MemoryLemmas

variable {s u : State} {i : Instr}

/-! ### The image -/

theorem resetWith_mem {image : List Byte} (cfg : Config) (heven : image.length % 2 = 0) (hlen : image.length ≤ 65536) :
    (State.resetWith cfg image).mem = imageCells 0 image := by
  rw [State.resetWith, if_neg (by omega), State.setMem_mem]

/-- Cell `j` of an image laid out from cell 0 on is byte `j` of the image, where it has one. -/
theorem byteAt_imageCells_zero {image : List Byte} {j : Nat} (h : j < image.length) :
    (imageCells 0 image).byteAt j = image[j] := by
  have hbyte := byteAt_imageCells image 0 j
  rwa [Nat.zero_add, List.getD_eq_getElem _ _ h] at hbyte

/-! ### The words of an instruction at pc -/

/-- The opcode map gives a well-formed instruction back from its own words, whatever words stand after them (30_encoding.md R37, R41). -/
theorem decodeWords_of_encode_prefix {op a b c : Word} (hwf : i.wf = true) (h : encode i <+: [op, a, b, c]) :
    decodeWords op a b c = some i := by
  cases i
  all_goals
    simp only [encode, Instr.opcode, Instr.operandWords, List.cons_prefix_cons] at h
    simp only [Instr.wf, Bool.and_eq_true] at hwf
  case halt | ret | noop =>
    obtain ⟨rfl, -⟩ := h
    rfl
  case push | jmp | call | out =>
    obtain ⟨rfl, rfl, -⟩ := h
    simp [decodeWords, ValueOperand.ofWord_word hwf]
  case pop | input =>
    obtain ⟨rfl, rfl, -⟩ := h
    simp [decodeWords, TargetOperand.ofWord_word hwf]
  case jt | jf | wmem =>
    obtain ⟨rfl, rfl, rfl, -⟩ := h
    simp [decodeWords, ValueOperand.ofWord_word hwf.1, ValueOperand.ofWord_word hwf.2]
  case set | not | rmem =>
    obtain ⟨rfl, rfl, rfl, -⟩ := h
    simp [decodeWords, TargetOperand.ofWord_word hwf.1, ValueOperand.ofWord_word hwf.2]
  case eq | gt | add | mul | modulo | and | or =>
    obtain ⟨rfl, rfl, rfl, rfl, -⟩ := h
    obtain ⟨⟨ha, hb⟩, hc⟩ := hwf
    simp [decodeWords, TargetOperand.ofWord_word ha, ValueOperand.ofWord_word hb, ValueOperand.ofWord_word hc]

/-- The words of an instruction stand in memory from pc on, all of them at addresses 0..32767. -/
structure StandsAtPc (i : Instr) (s : State) : Prop where
  fits : s.fits i.length
  words : ∀ (k : Nat) (h : k < (encode i).length), s.mem.wordAt (s.pc.toNat + k) = (encode i)[k]

theorem StandsAtPc.pc_le (h : StandsAtPc i s) : s.pc.toNat ≤ 32767 := by
  have hfit : s.pc.toNat + i.length ≤ 32768 := h.fits
  have := length_pos i
  omega

theorem StandsAtPc.codeWord (h : StandsAtPc i s) (k : Nat) (hk : k < (encode i).length) :
    s.codeWord (s.pc.toNat + k) = (encode i)[k] := by
  have hfit : s.pc.toNat + i.length ≤ 32768 := h.fits
  have hin : s.pc.toNat + k ≤ 32767 := by rw [encode_length] at hk; omega
  rw [State.codeWord, if_pos hin, h.words k hk]

theorem StandsAtPc.encode_prefix (h : StandsAtPc i s) :
    encode i <+: [s.codeWord s.pc.toNat, s.codeWord (s.pc.toNat + 1), s.codeWord (s.pc.toNat + 2), s.codeWord (s.pc.toNat + 3)] := by
  have hlen : (encode i).length ≤ 4 := encode_length i ▸ length_le_four i
  refine List.prefix_iff_getElem.2 ⟨hlen, fun k hk => ?_⟩
  rw [← h.codeWord k hk]
  match k, Nat.lt_of_lt_of_le hk hlen with
  | 0, _ | 1, _ | 2, _ | 3, _ => rfl

/-- The step of a Running state is the well-formed instruction whose words stand at pc (30_encoding.md R44, R45). -/
theorem StandsAtPc.step_eq_exec (h : StandsAtPc i s) (hrun : s.status = .running) (hwf : i.wf = true) : step s = exec i s :=
  step_of_fetchInstr hrun (fetchInstr_of_decodeWords h.pc_le (decodeWords_of_encode_prefix hwf h.encode_prefix))

/-- An instruction of one word stands at pc where the word there is its opcode. -/
theorem standsAtPc_of_opcode (hp : s.pc.toNat ≤ 32767) (hi : encode i = [i.opcode]) (h : s.mem.wordAt s.pc.toNat = i.opcode) :
    StandsAtPc i s where
  fits := by
    have hlen : i.length = 1 := by rw [← encode_length, hi, List.length_singleton]
    simp only [State.fits]
    omega
  words k hk := by
    obtain rfl : k = 0 := by simpa [hi] using hk
    simpa [hi] using h

/-- A step that fetches an opcode word 22..65535 raises InvalidOpcode of it, pc past it (30_encoding.md R42). -/
theorem step_of_invalidOpcode (hrun : s.status = .running) (hp : s.pc.toNat ≤ 32767)
    (h : 22 ≤ (s.mem.wordAt s.pc.toNat).toNat) :
    step s = .next (takeFault (.invalidOpcode (s.mem.wordAt s.pc.toNat)) s.pc (s.setPc (s.pc + 1))) := by
  have hc : s.codeWord s.pc.toNat = s.mem.wordAt s.pc.toNat := if_pos hp
  have hfetch : fetchInstr s = .raised (.invalidOpcode (s.mem.wordAt s.pc.toNat)) (s.setPc (s.pc + 1)) := by
    rw [fetchInstr, fetchWord_done hp, Micro.bind_done, hc, decodeWords_eq_none.2 h]
  simp [step, hrun, hfetch]

/-! ### noop and wmem -/

theorem exec_noop (h : s.pc.toNat ≤ 32767) : exec .noop s = .next (s.setPc (s.pc + 1)) := by
  simp [exec, execNoop, fetchWord_done h]

/-- wmem whose words lie in memory, whose operands resolve and whose address is in range stores the word (40_data_movement.md R55). -/
theorem exec_wmem {a b : ValueOperand} {addr v : Word} (hfit : s.fits 3) (ha : resolve a s = .done addr s)
    (hb : resolve b s = .done v s) (haddr : addr.toNat ≤ 32767) :
    exec (.wmem a b) s = .next ((s.setPc (s.pc + 3)).setMem (s.mem.setWord addr.toNat v)) := by
  simp only [State.fits] at hfit
  have hwrite : memWrite addr v (s.setPc (s.pc + 3)) = .done () ((s.setPc (s.pc + 3)).setMem (s.mem.setWord addr.toNat v)) :=
    if_neg (by omega)
  rw [exec, execWmem, fetchWord_bind (n := 2) (by omega), valueOperand_bind_first (n := 1) (by omega) ha,
    valueOperand_bind_second (n := 0) (by omega) hb, hwrite, complete_done]

end MemoryLemmas

/-! ### The statements -/

/-- Settles O46: the image is laid out byte by byte from cell 0 on, and word a is the cells 2a and 2a + 1. -/
theorem imageWordsAreLittleEndian : Obligations.ImageWordsAreLittleEndian := by
  intro cfg image a h heven hlen
  rw [resetWith_mem cfg heven hlen, Memory.wordAt, wordOfBytes_toNat, byteAt_imageCells_zero (Nat.lt_of_succ_lt h),
    byteAt_imageCells_zero h]

/-- Settles O57: a fetch reads the memory wmem left, which is v at the address and the memory before it elsewhere. -/
theorem fetchSeesTheStoredWord : Obligations.FetchSeesTheStoredWord := by
  intro a b s t u addr v hfit ha hb haddr ht hmem hrun
  have hword : ∀ k, u.mem.wordAt k = if k = addr.toNat then v else s.mem.wordAt k := by
    obtain rfl := Host.Outcome.next.inj ((exec_wmem hfit ha hb haddr).symm.trans ht)
    intro k
    rw [hmem, State.setMem_mem, Memory.wordAt_setWord]
  refine ⟨fun i hwf hfit hwords => ?_, ?_⟩
  · have hstands : StandsAtPc i u := ⟨hfit, fun k hk => (hword _).trans (hwords k hk)⟩
    exact hstands.step_eq_exec hrun hwf
  · rintro rfl
    have hv : u.mem.wordAt u.pc.toNat = v := (hword _).trans (if_pos rfl)
    refine ⟨?_, ?_, fun h22 => ?_⟩
    · rintro rfl
      rw [(standsAtPc_of_opcode (i := .halt) haddr rfl hv).step_eq_exec hrun rfl, exec_halt haddr]
    · rintro rfl
      rw [(standsAtPc_of_opcode (i := .noop) haddr rfl hv).step_eq_exec hrun rfl, exec_noop haddr]
    · subst hv
      exact step_of_invalidOpcode hrun haddr h22

end Sys2Proof.Machine

/-! SUPPORT. Encoding (30_encoding.md): bytes decode to an instruction exactly where they begin with its words and it is well-formed;
the step fetches what decodes at pc; a fetch that runs past the last word of memory; and from these the statements of the family. -/

namespace Sys2Proof

section DecoderLemmas

variable {i : Instr}

/-! ### Operand words -/

/-- The form of the word of a well-formed operand is that operand (30_encoding.md R39). -/
theorem ValueOperand.ofWord_eq {w : Word} {o : ValueOperand} (hw : w = o.word) (hwf : o.wf = true) : ValueOperand.ofWord w = o :=
  hw ▸ ValueOperand.ofWord_word hwf

/-- The form of the word of a well-formed target is that target (30_encoding.md R40). -/
theorem TargetOperand.ofWord_eq {w : Word} {o : TargetOperand} (hw : w = o.word) (hwf : o.wf = true) :
    TargetOperand.ofWord w = o :=
  hw ▸ TargetOperand.ofWord_word hwf

theorem eq_referenceWord {w : Word} {j : Fin 8} (h : w.toNat = 32768 + j.val) : w = referenceWord j :=
  BitVec.eq_of_toNat_eq (h.trans (referenceWord_toNat j).symm)

/-! ### The opcode map and the words of an instruction -/

/-- The words of an instruction are the first of four words where each of them is the word at its place. -/
theorem encode_prefix_iff (i : Instr) (f : Nat → Word) :
    encode i <+: [f 0, f 1, f 2, f 3] ↔ ∀ (k : Nat) (h : k < (encode i).length), f k = (encode i)[k] := by
  have hlen : (encode i).length ≤ 4 := encode_length i ▸ length_le_four i
  have hf : ∀ (k : Nat) (hk : k < 4), [f 0, f 1, f 2, f 3][k] = f k := by
    intro k hk
    match k, hk with
    | 0, _ | 1, _ | 2, _ | 3, _ => rfl
  rw [List.prefix_iff_getElem]
  constructor
  · rintro ⟨_, h⟩ k hk
    exact (hf k (Nat.lt_of_lt_of_le hk hlen)).symm.trans (h k hk).symm
  · exact fun h => ⟨hlen, fun k hk => (h k hk).symm.trans (hf k (Nat.lt_of_lt_of_le hk hlen)).symm⟩

/-- What the opcode map finds is well-formed, and its words are the words it was found at (30_encoding.md R37, R41, R50). -/
theorem wf_and_encode_prefix_of_decodeWords {op a b c : Word} (h : decodeWords op a b c = some i) :
    i.wf = true ∧ encode i <+: [op, a, b, c] := by
  obtain rfl := decodeWords_opcode h
  cases i
  all_goals cases h
  case halt | ret | noop => exact ⟨rfl, ⟨_, rfl⟩⟩
  all_goals simp [Instr.wf, ValueOperand.wf_ofWord, TargetOperand.wf_ofWord, encode, Instr.operandWords]

/-! ### Bytes -/

/-- Where the opcode map has an instruction for the first words of a list of bytes that holds all of its words, `decode` finds it. -/
theorem decode_of_decodeWords {bs : List Byte} (hlen : 2 * i.length ≤ bs.length)
    (h : decodeWords (byteListWord bs 0) (byteListWord bs 1) (byteListWord bs 2) (byteListWord bs 3) = some i) :
    decode bs = .ok (i, bs.drop (2 * i.length)) := by
  have hpos := length_pos i
  have hword : ¬ bs.length < 2 := by omega
  have hall : ¬ bs.length < 2 * i.length := by omega
  simp [decode, hword, h, hall]

/-- Bytes whose first words are `ws` are the bytes of `ws` and what follows them. -/
theorem bytesOfWords_append_drop {ws : List Word} {bs : List Byte} (hlen : 2 * ws.length ≤ bs.length)
    (h : ∀ (k : Nat) (hk : k < ws.length), byteListWord bs k = ws[k]) : bytesOfWords ws ++ bs.drop (2 * ws.length) = bs := by
  induction ws generalizing bs with
  | nil => rfl
  | cons w ws ih =>
    match bs with
    | [] | [_] => simp only [List.length_cons, List.length_nil] at hlen; omega
    | lo :: hi :: bs =>
      have hw : wordOfBytes lo hi = w := h 0 (Nat.zero_lt_succ _)
      have hrest : bytesOfWords ws ++ bs.drop (2 * ws.length) = bs :=
        ih (by simp only [List.length_cons] at hlen; omega) fun k hk =>
          (byteListWord_succ lo hi bs k).symm.trans (h (k + 1) (Nat.succ_lt_succ hk))
      subst hw
      simpa [bytesOfWords, Nat.mul_add] using hrest

end DecoderLemmas

end Sys2Proof

namespace Sys2Proof.Machine

section StepLemmas

variable {s u : State} {i : Instr}

/-! ### The step -/

/-- The fetch of a Running state finds what the bytes at pc decode to. -/
theorem fetchInstr_of_decode {rest : List Byte} (hp : s.pc.toNat ≤ 32767) (h : decode s.codeBytes = .ok (i, rest)) :
    fetchInstr s = .done i s := by
  obtain ⟨-, -, hdec⟩ := decode_eq_ok h
  simp only [byteListWord_codeBytes, Nat.reduceLT] at hdec
  exact fetchInstr_of_decodeWords hp hdec

/-- A fetch that finds an instruction found it in memory. -/
theorem pc_le_of_fetchInstr (h : fetchInstr s = .done i s) : s.pc.toNat ≤ 32767 := by
  rcases fetchInstr_spec s with ⟨-, e⟩ | ⟨hp, -⟩ | ⟨-, hp, -⟩
  · cases e.symm.trans h
  · exact hp
  · exact hp

theorem step_of_fetch_raised {c : FaultCause} (hrun : s.status = .running) (h : fetchInstr s = .raised c u) :
    step s = .next (takeFault c s.pc u) := by
  simp [step, hrun, h]

/-- Whatever the fetch comes to, a Running state has a next state. -/
theorem step_isNext (hrun : s.status = .running) : ∃ t, step s = .next t := by
  rcases fetchInstr_spec s with ⟨-, e⟩ | ⟨-, -, e⟩ | ⟨i, -, -, -, e⟩
  · exact ⟨_, step_of_fetch_raised hrun e⟩
  · exact ⟨_, step_of_fetch_raised hrun e⟩
  · obtain ⟨t, ht⟩ := exec_isNext i s
    exact ⟨t, (step_of_fetchInstr hrun e).trans ht⟩

theorem Micro.bind_assoc {α β γ : Type} (m : Micro α) (g : α → State → Micro β) (f : β → State → Micro γ) :
    (m.bind g).bind f = m.bind fun a t => (g a t).bind f := by
  cases m <;> rfl

/-! ### An instruction that runs past the last word of memory -/

/-- What such an instruction raises: the fetch at 32768, or an operand word after pc, in memory, that cannot be resolved. -/
def RunsOutCause (s : State) (c : FaultCause) : Prop :=
  c = .invalidAddress .fetch 32768 ∨
    ∃ k, s.pc.toNat < k ∧ k ≤ 32767 ∧ 32776 ≤ (s.mem.wordAt k).toNat ∧ c = .invalidAddress .operand (s.mem.wordAt k)

/-- The micro-steps raise such a fault, having moved pc alone. -/
def RunsOut {α : Type} (s : State) (m : Micro α) : Prop := ∃ c p, m = .raised c (s.setPc p) ∧ RunsOutCause s c

theorem RunsOut.complete {m : Micro Unit} (h : RunsOut s m) :
    ∃ c p, complete s m = .next (takeFault c s.pc (s.setPc p)) ∧ RunsOutCause s c := by
  obtain ⟨c, p, rfl, hc⟩ := h
  exact ⟨c, p, rfl, hc⟩

/-- The word `n` words after pc is the word of value operand `o`, in the form of its range. -/
structure ValueStands (s : State) (n : Nat) (o : ValueOperand) : Prop where
  word : s.codeWord (s.pc.toNat + n) = o.word
  wf : o.wf = true

theorem valueOperand_wf {o : ValueOperand} (hwf : i.wf = true) (ho : o ∈ valueOperands i) : o.wf = true := by
  cases i
  case halt | ret | noop | pop | input => cases ho
  all_goals
    simp only [valueOperands, List.mem_cons, List.not_mem_nil, or_false] at ho
    simp only [Instr.wf, Bool.and_eq_true] at hwf
  case push | jmp | call | out => exact ho ▸ hwf
  case set | not | rmem => exact ho ▸ hwf.2
  case jt | jf | wmem => exact ho.elim (· ▸ hwf.1) (· ▸ hwf.2)
  case eq | gt | add | mul | modulo | and | or => exact ho.elim (· ▸ hwf.1.2) (· ▸ hwf.2)

/-- The value operands of the instruction a fetch finds stand where its encoding has them. -/
theorem valueStands_of_fetchInstr (h : fetchInstr s = .done i s) {n : Nat} {o : ValueOperand} (ho : o ∈ valueOperands i)
    (hn : (encode i)[n]? = some o.word) : ValueStands s n o := by
  rcases fetchInstr_spec s with ⟨-, e⟩ | ⟨-, -, e⟩ | ⟨j, -, -, hdec, e⟩ <;> rw [e] at h
  · cases h
  · cases h
  · cases h
    obtain ⟨hwf, hprefix⟩ := wf_and_encode_prefix_of_decodeWords hdec
    obtain ⟨hlt, hget⟩ := List.getElem?_eq_some_iff.1 hn
    have hcode := (encode_prefix_iff i fun k => s.codeWord (s.pc.toNat + k)).1 hprefix n hlt
    exact ⟨hcode.trans hget, valueOperand_wf hwf ho⟩

theorem walked_zero (h : s.pc.toNat ≤ 32767) : Walked 0 s s :=
  ⟨by simp only [State.fits]; omega, congrArg s.setPc (BitVec.add_zero s.pc).symm⟩

section Walks

variable {α : Type} {n : Nat}

/-- A fetch that is not the one beyond address 32767 leaves that to the rest. -/
theorem fetchWord_runsOut {f : Unit → State → Micro α} (hu : Walked n s u)
    (hf : ∀ v, Walked (n + 1) s v → RunsOut s (f () v)) : RunsOut s ((fetchWord u).bind f) := by
  have hwalk := fetchWord_walked hu
  obtain ⟨hfit, hset⟩ := hu
  rcases fetchWord_spec u with ⟨-, e⟩ | ⟨hp, e⟩
  · rw [e] at hwalk ⊢
    exact hf _ hwalk
  · have hpast : u.pc.toNat = s.pc.toNat + n := Walked.past ⟨hfit, hset⟩
    have hpc : u.pc = 32768 := BitVec.eq_of_toNat_eq (show u.pc.toNat = 32768 by simp only [State.fits] at hfit; omega)
    exact ⟨.invalidAddress .fetch 32768, _, by rw [e, Micro.bind_raised, hpc, hset], .inl rfl⟩

theorem targetOperand_runsOut {a : TargetOperand} {f : TargetOperand → State → Micro α} (hu : Walked n s u)
    (hf : ∀ v, Walked (n + 1) s v → RunsOut s (f a v)) : RunsOut s ((targetOperand a u).bind f) := by
  rw [targetOperand, Micro.bind_assoc]
  exact fetchWord_runsOut hu hf

/-- A value operand's word that is fetched and cannot be resolved is a word of memory after pc. -/
theorem valueOperand_runsOut {o : ValueOperand} {f : Word → State → Micro α} (hn : 0 < n) (ho : ValueStands s n o)
    (hu : Walked n s u) (hf : ∀ x v, Walked (n + 1) s v → RunsOut s (f x v)) : RunsOut s ((valueOperand o u).bind f) := by
  rw [valueOperand, Micro.bind_assoc]
  refine fetchWord_runsOut hu fun v hv => ?_
  rcases resolve_spec o v with ⟨x, e, -⟩ | ⟨w, rfl, e⟩ <;> rw [e]
  · exact hf x v hv
  · obtain ⟨hfit, rfl⟩ := hv
    have hin : s.pc.toNat + n ≤ 32767 := by simp only [State.fits] at hfit; omega
    obtain ⟨hword, hwf⟩ := ho
    have hw : s.mem.wordAt (s.pc.toNat + n) = w := by rwa [State.codeWord, if_pos hin] at hword
    have hrange : 32776 ≤ w.toNat := of_decide_eq_true hwf
    subst hw
    exact ⟨_, _, rfl, .inr ⟨_, by omega, hin, hrange, rfl⟩⟩

theorem threeOperands_runsOut {eff : Word → Word → State → Micro Word} {a : TargetOperand} {b c : ValueOperand}
    (hu : Walked 0 s s) (hb : ValueStands s 2 b) (hc : ValueStands s 3 c) (hfit : ¬ s.fits 4) :
    RunsOut s (threeOperands eff a b c s) :=
  fetchWord_runsOut hu fun _ h1 => targetOperand_runsOut h1 fun _ h2 =>
    valueOperand_runsOut (Nat.succ_pos 1) hb h2 fun _ _ h3 => valueOperand_runsOut (Nat.succ_pos 2) hc h3 fun _ _ h4 =>
    absurd h4.1 hfit

theorem targetAndValue_runsOut {eff : Word → State → Micro Word} {a : TargetOperand} {b : ValueOperand}
    (hu : Walked 0 s s) (hb : ValueStands s 2 b) (hfit : ¬ s.fits 3) : RunsOut s (targetAndValue eff a b s) :=
  fetchWord_runsOut hu fun _ h1 => targetOperand_runsOut h1 fun _ h2 =>
    valueOperand_runsOut (Nat.succ_pos 1) hb h2 fun _ _ h3 => absurd h3.1 hfit

/-- Two value operands and what follows: the conditional jumps and wmem. -/
theorem twoValues_runsOut {a b : ValueOperand} {f : Word → Word → State → Micro α} (hu : Walked 0 s s)
    (ha : ValueStands s 1 a) (hb : ValueStands s 2 b) (hfit : ¬ s.fits 3) :
    RunsOut s ((fetchWord s).bind fun _ s => (valueOperand a s).bind fun x s => (valueOperand b s).bind (f x)) :=
  fetchWord_runsOut hu fun _ h1 => valueOperand_runsOut (Nat.succ_pos 0) ha h1 fun _ _ h2 =>
    valueOperand_runsOut (Nat.succ_pos 1) hb h2 fun _ _ h3 => absurd h3.1 hfit

/-- One value operand and what follows: push, jmp, call and out. -/
theorem oneValue_runsOut {a : ValueOperand} {f : Word → State → Micro α} (hu : Walked 0 s s) (ha : ValueStands s 1 a)
    (hfit : ¬ s.fits 2) : RunsOut s ((fetchWord s).bind fun _ s => (valueOperand a s).bind f) :=
  fetchWord_runsOut hu fun _ h1 => valueOperand_runsOut (Nat.succ_pos 0) ha h1 fun _ _ h2 => absurd h2.1 hfit

/-- A target and what follows: pop and input. -/
theorem oneTarget_runsOut {a : TargetOperand} {f : TargetOperand → State → Micro α} (hu : Walked 0 s s) (hfit : ¬ s.fits 2) :
    RunsOut s ((fetchWord s).bind fun _ s => (targetOperand a s).bind f) :=
  fetchWord_runsOut hu fun _ h1 => targetOperand_runsOut h1 fun _ h2 => absurd h2.1 hfit

end Walks

/-- An instruction found at pc that does not fit faults on a fetch at 32768 or on an operand word it met before. -/
theorem exec_runsOut (h : fetchInstr s = .done i s) (hfit : ¬ s.fits i.length) :
    ∃ c p, exec i s = .next (takeFault c s.pc (s.setPc p)) ∧ RunsOutCause s c := by
  have hp := pc_le_of_fetchInstr h
  have hu := walked_zero hp
  have stands : ∀ m {n o}, (valueOperands i)[m]? = some o → (encode i)[n]? = some o.word → ValueStands s n o :=
    fun _ _ _ ho hn => valueStands_of_fetchInstr h (List.mem_of_getElem? ho) hn
  cases i
  case halt | ret | noop => exact absurd (show s.pc.toNat + 1 ≤ 32768 by omega) hfit
  case push | jmp | call | out => exact (oneValue_runsOut hu (stands 0 rfl rfl) hfit).complete
  case pop | input => exact (oneTarget_runsOut hu hfit).complete
  case set | not | rmem => exact (targetAndValue_runsOut hu (stands 0 rfl rfl) hfit).complete
  case jt | jf | wmem => exact (twoValues_runsOut hu (stands 0 rfl rfl) (stands 1 rfl rfl) hfit).complete
  case eq | gt | add | mul | modulo | and | or =>
    exact (threeOperands_runsOut hu (stands 0 rfl rfl) (stands 1 rfl rfl) hfit).complete

/-! ### Target words -/

/-- A target word names register j by its number or by its reference (30_encoding.md R40). -/
theorem targetRegister_ofWord {w : Word} {j : Fin 8} (h : w.toNat = j.val ∨ w.toNat = 32768 + j.val) :
    targetRegister (.ofWord w) = some j := by
  rcases h with h | h
  · have hw : w = (TargetOperand.direct j).word := by rw [TargetOperand.word, ← h, BitVec.ofNat_toNat, BitVec.setWidth_eq]
    exact congrArg targetRegister (TargetOperand.ofWord_eq hw rfl)
  · exact congrArg targetRegister (TargetOperand.ofWord_eq (o := .register j) (eq_referenceWord h) rfl)

end StepLemmas

/-! ### The statements -/

/-- Settles O3: the first words of the bytes are the instruction's, and the opcode map gives it back from them. -/
theorem decodeOfEncodeIsTheInstruction : Obligations.DecodeOfEncodeIsTheInstruction := by
  intro i rest hwf
  have hprefix := (encode_prefix_iff i (byteListWord (encodeBytes i ++ rest))).2 (byteListWord_bytesOfWords (encode i) rest)
  have hlen : 2 * i.length ≤ (encodeBytes i ++ rest).length := by
    rw [List.length_append, encodeBytes_length]
    exact Nat.le_add_right _ _
  rw [decode_of_decodeWords hlen (decodeWords_of_encode_prefix hwf hprefix), ← encodeBytes_length, List.drop_left]

/-- Settles O4: the words the opcode map found the instruction at are its encoding, and the rest is what stands after them. -/
theorem encodeOfDecodeIsTheBytes : Obligations.EncodeOfDecodeIsTheBytes := by
  intro bs rest i h
  obtain ⟨hlen, rfl, hdec⟩ := decode_eq_ok h
  obtain ⟨hwf, hprefix⟩ := wf_and_encode_prefix_of_decodeWords hdec
  rw [← encode_length] at hlen ⊢
  exact ⟨hwf, bytesOfWords_append_drop hlen ((encode_prefix_iff i (byteListWord bs)).1 hprefix)⟩

/-- Settles O7: the instruction stands at pc, and the fetch finds it there. -/
theorem stepRunsTheEncodedInstruction : Obligations.StepRunsTheEncodedInstruction :=
  fun _ _ hrun hwf hfit hwords => (StandsAtPc.mk hfit hwords).step_eq_exec hrun hwf

/-- Settles O8: above 32767 the opcode fetch faults; an instruction that does not fit fetches its words in order until one faults. -/
theorem fetchBeyondMemoryFaults : Obligations.FetchBeyondMemoryFaults := by
  refine fun s hrun => ⟨fun hp => step_of_fetch_raised hrun ?_, fun i hi hfit => ?_⟩
  · rw [fetchInstr, fetchWord_raised hp, Micro.bind_raised]
  · rw [step_of_fetchInstr hrun hi]
    exact exec_runsOut hi hfit

/-- Settles O11: the fetch never waits and every instruction answers a next state; a terminal status answers a fault. -/
theorem runningStepAnswersNext : Obligations.RunningStepAnswersNext := by
  refine ⟨fun s => step_isNext, fun s m hm => ?_⟩
  cases hs : s.status with
  | running =>
    obtain ⟨t, ht⟩ := step_isNext hs
    cases ht.symm.trans hm
  | halted => simp [step, hs] at hm
  | faulted r => simp [step, hs] at hm

/-- Settles O1: each row is the opcode map evaluated at its opcode. -/
theorem opcodeMapDecodesEveryOpcode : Obligations.OpcodeMapDecodesEveryOpcode := by
  intro a b c
  and_intros <;> rfl

/-- Settles O2: the decoder evaluated at the seven lists. -/
theorem wordsWrittenOutDecode : Obligations.WordsWrittenOutDecode := by
  unfold Obligations.WordsWrittenOutDecode
  decide

/-- Settles O5: the opcode map has no such word, and the step raises before it fetches another. -/
theorem illegalOpcodesRaiseInvalidOpcode : Obligations.IllegalOpcodesRaiseInvalidOpcode :=
  ⟨fun _ _ _ _ => decodeWords_eq_none.2, fun _ hrun hp h => ⟨_, _, step_of_invalidOpcode hrun hp h, rfl, rfl⟩⟩

/-- Settles O6: the fetch reads the bytes at pc. -/
theorem stepRunsTheDecodedInstruction : Obligations.StepRunsTheDecodedInstruction :=
  fun _ _ _ hrun hp h => step_of_fetchInstr hrun (fetchInstr_of_decode hp h)

/-- Settles O13: the form of an operand word is that of its range. -/
theorem resolveFollowsTheWordRanges : Obligations.ResolveFollowsTheWordRanges := by
  intro w s
  have form : ∀ o, w = o.word → o.wf = true → resolve (.ofWord w) s = resolve o s := fun o hw hwf =>
    congrArg (resolve · s) (ValueOperand.ofWord_eq hw hwf)
  exact ⟨fun h => form (.literal w) rfl (decide_eq_true h), fun i h => form (.register i) (eq_referenceWord h) rfl,
    fun h => form (.invalid w) rfl (decide_eq_true h)⟩

/-- Settles O14: the target word names the register or none, and the value is re-resolved where it is a reference. -/
theorem storeFollowsTheTargetRanges : Obligations.StoreFollowsTheTargetRanges := by
  refine fun t v s => ⟨fun i ht => ⟨fun hv => ?_, fun j hv => ?_⟩, fun ht => ?_, fun i j => State.reg_setReg s i j v⟩
  · rw [store_done v s (targetRegister_ofWord ht), reResolve_of_not_reference s hv]
  · rw [store_done v s (targetRegister_ofWord ht), reResolve_reference s hv]
  · exact congrArg (store · v s) (TargetOperand.ofWord_eq (o := .invalid t) rfl (decide_eq_true ht))

end Sys2Proof.Machine

/-! SUPPORT. Data movement (40_data_movement.md): what the words of an instruction come to, walked past at once; the stack and the memory
the instructions leave; an instruction that ends in Store; and from these the statements of the family. -/

namespace Sys2Proof.Machine

section DataMovementLemmas

variable {s t u : State} {i : Instr}

/-! ### The words of an instruction, all of them in memory -/

section Fetched

variable {α : Type}

/-- push, jmp, call and out, when the value resolves. -/
theorem oneValue_resolved {a : ValueOperand} {v : Word} {f : Word → State → Micro α} (h : s.pc.toNat + 2 ≤ 32768)
    (ha : resolve a s = .done v s) :
    ((fetchWord s).bind fun _ s => (valueOperand a s).bind f) = f v (s.setPc (s.pc + 2)) := by
  rw [fetchWord_bind (n := 1) h, valueOperand_bind_first (n := 0) h ha]

theorem oneValue_invalid {w : Word} {f : Word → State → Micro α} (h : s.pc.toNat + 2 ≤ 32768) :
    ((fetchWord s).bind fun _ s => (valueOperand (.invalid w) s).bind f) =
      .raised (.invalidAddress .operand w) (s.setPc (s.pc + 2)) := by
  rw [fetchWord_bind (n := 1) h, valueOperand_bind_first_invalid (n := 0) h]

/-- pop and input: the target comes back as it is. -/
theorem oneTarget_fetched {a : TargetOperand} {f : TargetOperand → State → Micro α} (h : s.pc.toNat + 2 ≤ 32768) :
    ((fetchWord s).bind fun _ s => (targetOperand a s).bind f) = f a (s.setPc (s.pc + 2)) := by
  rw [fetchWord_bind (n := 1) h, targetOperand_bind (n := 0) h]

/-- wmem and the conditional jumps, when both values resolve. -/
theorem twoValues_resolved {a b : ValueOperand} {v w : Word} {f : Word → Word → State → Micro α} (h : s.pc.toNat + 3 ≤ 32768)
    (ha : resolve a s = .done v s) (hb : resolve b s = .done w s) :
    ((fetchWord s).bind fun _ s => (valueOperand a s).bind fun x s => (valueOperand b s).bind (f x)) =
      f v w (s.setPc (s.pc + 3)) := by
  rw [fetchWord_bind (n := 2) h, valueOperand_bind_first (n := 1) h ha, valueOperand_bind_second (n := 0) h hb]

theorem twoValues_invalid_a {b : ValueOperand} {w : Word} {f : Word → Word → State → Micro α} (h : s.pc.toNat + 3 ≤ 32768) :
    ((fetchWord s).bind fun _ s => (valueOperand (.invalid w) s).bind fun x s => (valueOperand b s).bind (f x)) =
      .raised (.invalidAddress .operand w) (s.setPc (s.pc + 2)) := by
  rw [fetchWord_bind (n := 2) h, valueOperand_bind_first_invalid (n := 1) h]

theorem twoValues_invalid_b {a : ValueOperand} {v w : Word} {f : Word → Word → State → Micro α} (h : s.pc.toNat + 3 ≤ 32768)
    (ha : resolve a s = .done v s) :
    ((fetchWord s).bind fun _ s => (valueOperand a s).bind fun x s => (valueOperand (.invalid w) s).bind (f x)) =
      .raised (.invalidAddress .operand w) (s.setPc (s.pc + 3)) := by
  rw [fetchWord_bind (n := 2) h, valueOperand_bind_first (n := 1) h ha, valueOperand_bind_second_invalid (n := 0) h]

end Fetched

/-! ### The words of an instruction, wherever it stands: fetching and resolving change pc alone

`Q` holds of `s` with any pc, and so of every state a fetch or a resolution can fault in. -/

section Walking

variable {α : Type} {Q : State → Prop} (hQ : ∀ p, Q (s.setPc p))
include hQ

theorem fetchWord_bind_holds {p : Word} {f : Unit → State → Micro α} (hf : ∀ q, (f () (s.setPc q)).Holds Q) :
    ((fetchWord (s.setPc p)).bind f).Holds Q := by
  rcases fetchWord_spec (s.setPc p) with ⟨-, e⟩ | ⟨-, e⟩ <;> rw [e]
  · exact hf _
  · exact hQ p

theorem valueOperand_bind_holds {p : Word} {o : ValueOperand} {f : Word → State → Micro α}
    (hf : ∀ v q, resolve o s = .done v s → (f v (s.setPc q)).Holds Q) : ((valueOperand o (s.setPc p)).bind f).Holds Q := by
  rcases valueOperand_spec o (s.setPc p) with ⟨-, e⟩ | ⟨v, -, hv, e⟩ | ⟨w, -, -, e⟩ <;> rw [e]
  · exact hQ p
  · exact hf v _ (resolve_congr hv rfl)
  · exact hQ _

theorem oneValue_holds {a : ValueOperand} {f : Word → State → Micro α} (hf : ∀ v p, (f v (s.setPc p)).Holds Q) :
    ((fetchWord s).bind fun _ s => (valueOperand a s).bind f).Holds Q :=
  fetchWord_bind_holds hQ (p := s.pc) fun _ => valueOperand_bind_holds hQ fun v p _ => hf v p

theorem oneTarget_holds {a : TargetOperand} {f : TargetOperand → State → Micro α} (hf : ∀ p, (f a (s.setPc p)).Holds Q) :
    ((fetchWord s).bind fun _ s => (targetOperand a s).bind f).Holds Q := by
  refine fetchWord_bind_holds hQ (p := s.pc) fun _ => ?_
  rw [targetOperand, Micro.bind_assoc]
  exact fetchWord_bind_holds hQ hf

theorem twoValues_holds {a b : ValueOperand} {f : Word → Word → State → Micro α}
    (hf : ∀ v w p, resolve a s = .done v s → resolve b s = .done w s → (f v w (s.setPc p)).Holds Q) :
    ((fetchWord s).bind fun _ s => (valueOperand a s).bind fun x s => (valueOperand b s).bind (f x)).Holds Q :=
  fetchWord_bind_holds hQ (p := s.pc) fun _ => valueOperand_bind_holds hQ fun v _ ha =>
    valueOperand_bind_holds hQ fun w p hb => hf v w p ha hb

end Walking

/-! ### Frames -/

theorem Frame.reg_eq (h : Frame i s u) (hi : targetOf i = none) (j : Fin 8) : u.reg j = s.reg j :=
  h.reg j (by simp [writtenRegister, hi])

theorem Frame.status_eq_or_faulted (h : Frame i s u) (hi : i ≠ .halt) :
    u.status = s.status ∨ ∃ c, u.status = .faulted ⟨c, s.pc⟩ := by
  rcases h.status with hs | ⟨rfl, -⟩ | hs
  · exact .inl hs
  · exact absurd rfl hi
  · exact .inr hs

/-- The stack of `u` is that of `s`, or has one entry more at its top (10_state.md R16). -/
def PushedAtMostOne (s u : State) : Prop := u.stack = s.stack ∨ ∃ v, u.stack = s.stack ++ [v]

/-- The stack of `u` is that of `s`, or lacks its top (10_state.md R16). -/
def PoppedAtMostOne (s u : State) : Prop := u.stack = s.stack ∨ ∃ v, s.stack = u.stack ++ [v]

theorem pushWord_pushedAtMostOne (v p : Word) : (pushWord v (s.setPc p)).Holds (PushedAtMostOne s) := by
  rcases pushWord_spec v (s.setPc p) with ⟨-, e⟩ | ⟨-, e⟩ <;> rw [e]
  · exact .inr ⟨v, rfl⟩
  · exact .inl rfl

theorem popWord_poppedAtMostOne (p : Word) : (popWord (s.setPc p)).Holds (PoppedAtMostOne s) := by
  rcases popWord_spec (s.setPc p) with ⟨st, v, hst, e⟩ | ⟨-, e⟩ <;> rw [e]
  · exact .inr ⟨v, hst⟩
  · exact .inl rfl

theorem exec_push_pushedAtMostOne {a : ValueOperand} (h : exec (.push a) s = .next t) : PushedAtMostOne s t :=
  complete_keeps h (.inl rfl) (oneValue_holds (fun _ => .inl rfl) pushWord_pushedAtMostOne) fun _ _ hu => hu

theorem exec_call_pushedAtMostOne {a : ValueOperand} (h : exec (.call a) s = .next t) : PushedAtMostOne s t := by
  refine complete_keeps h (.inl rfl) (oneValue_holds (fun _ => .inl rfl) fun v p => ?_) fun _ _ hu => hu
  exact (pushWord_pushedAtMostOne _ p).bind fun _ _ hu => hu

theorem exec_ret_poppedAtMostOne (h : exec .ret s = .next t) : PoppedAtMostOne s t := by
  refine complete_keeps h (.inl rfl) (fetchWord_bind_holds (fun _ => .inl rfl) (p := s.pc) fun p => ?_) fun _ _ hu => hu
  exact (popWord_poppedAtMostOne p).bind fun _ _ hu => hu

theorem exec_pop_poppedAtMostOne {a : TargetOperand} (h : exec (.pop a) s = .next t) : PoppedAtMostOne s t := by
  refine complete_keeps h (.inl rfl) (oneTarget_holds (fun _ => .inl rfl) fun p => ?_) fun _ _ hu => hu
  exact (popWord_poppedAtMostOne p).bind fun v _ hu => store_holds a v hu fun _ _ => hu

/-- The memory of `u` is that of `s`, or has the value of `b` at the address `a` resolves to, which is in range (20_memory.md R29). -/
def WroteAtMost (a b : ValueOperand) (s u : State) : Prop :=
  u.mem = s.mem ∨ ∃ addr v, resolve a s = .done addr s ∧ resolve b s = .done v s ∧ addr.toNat ≤ 32767 ∧
    u.mem = s.mem.setWord addr.toNat v

theorem exec_wmem_wroteAtMost {a b : ValueOperand} (h : exec (.wmem a b) s = .next t) : WroteAtMost a b s t := by
  refine complete_keeps h (.inl rfl) (twoValues_holds (fun _ => .inl rfl) fun addr v p ha hb => ?_) fun _ _ hu => hu
  rcases memWrite_spec addr v (s.setPc p) with ⟨haddr, e⟩ | ⟨-, e⟩ <;> rw [e]
  · exact .inr ⟨addr, v, ha, hb, haddr, rfl⟩
  · exact .inl rfl

theorem WroteAtMost.byteAt_other {a b : ValueOperand} {addr : Word} {k : Nat} (h : WroteAtMost a b s u)
    (ha : resolve a s = .done addr s) (h0 : k ≠ 2 * addr.toNat) (h1 : k ≠ 2 * addr.toNat + 1) :
    u.mem.byteAt k = s.mem.byteAt k := by
  rcases h with hmem | ⟨x, v, hx, -, -, hmem⟩
  · rw [hmem]
  · cases ha.symm.trans hx
    rw [hmem, Memory.byteAt_setWord_other s.mem addr.toNat v k h0 h1]

/-- Nothing is written where an operand does not resolve or the address is out of range. -/
theorem WroteAtMost.mem_eq {a b : ValueOperand} (h : WroteAtMost a b s u)
    (hno : ∀ addr v, resolve a s = .done addr s → resolve b s = .done v s → ¬ addr.toNat ≤ 32767) : u.mem = s.mem :=
  h.resolve_right fun ⟨addr, v, ha, hb, hle, _⟩ => hno addr v ha hb hle

/-! ### An instruction that raises, and one that ends in Store -/

theorem raises_of_exec {c : FaultCause} (h : exec i s = complete s (.raised c u)) : Raises i s c :=
  ⟨takeFault c s.pc u, ⟨c, s.pc⟩, h, rfl, rfl⟩

/-- What an instruction comes to whose last micro-step is the Store of `v` from `u`, where the registers are still those of `s`
(30_encoding.md R40). -/
theorem exec_of_store {a : TargetOperand} {v : Word} (hi : exec i s = complete s (store a v u)) (hreg : ∀ j, u.reg j = s.reg j) :
    (∀ w, a = .invalid w → Raises i s (.invalidAddress .target w)) ∧
    ∀ r, targetRegister a = some r →
      (v.toNat < 32768 ∨ 32775 < v.toNat → exec i s = .next (u.setReg r v)) ∧
      (∀ j : Fin 8, v.toNat = 32768 + j.val → exec i s = .next (u.setReg r (s.reg j))) := by
  refine ⟨?_, fun r hr => ⟨fun hv => ?_, fun j hv => ?_⟩⟩
  · rintro w rfl
    exact raises_of_exec hi
  · rw [hi, store_done v u hr, reResolve_of_not_reference u hv, complete_done]
  · rw [hi, store_done v u hr, reResolve_reference u hv, hreg j, complete_done]

/-! ### push and pop -/

theorem exec_push {a : ValueOperand} {v : Word} (hfit : s.fits 2) (ha : resolve a s = .done v s) :
    exec (.push a) s = complete s (pushWord v (s.setPc (s.pc + 2))) :=
  congrArg (complete s) (oneValue_resolved hfit ha)

theorem exec_push_full {a : ValueOperand} {v : Word} (hfit : s.fits 2) (ha : resolve a s = .done v s)
    (hfull : s.config.stackCapacity = some s.stack.length) :
    exec (.push a) s = .next (takeFault .stackOverflow s.pc (s.setPc (s.pc + 2))) := by
  rw [exec_push hfit ha, pushWord_raised (s := s.setPc (s.pc + 2)) v hfull, complete_raised]

theorem exec_push_room {a : ValueOperand} {v : Word} (hfit : s.fits 2) (ha : resolve a s = .done v s)
    (hroom : s.config.stackCapacity ≠ some s.stack.length) :
    exec (.push a) s = .next ((s.setPc (s.pc + 2)).setStack (s.stack ++ [v])) := by
  rw [exec_push hfit ha, pushWord_done (s := s.setPc (s.pc + 2)) v hroom, complete_done, State.setPc_stack]

theorem exec_pop {a : TargetOperand} (hfit : s.fits 2) :
    exec (.pop a) s = complete s ((popWord (s.setPc (s.pc + 2))).bind (store a)) :=
  congrArg (complete s) (oneTarget_fetched hfit)

theorem exec_pop_empty {a : TargetOperand} (hfit : s.fits 2) (hst : s.stack = []) :
    exec (.pop a) s = complete s (.raised .stackUnderflow (s.setPc (s.pc + 2))) := by
  rw [exec_pop hfit, popWord_raised (s := s.setPc (s.pc + 2)) hst, Micro.bind_raised]

theorem exec_pop_top {a : TargetOperand} {st : List Word} {v : Word} (hfit : s.fits 2) (hst : s.stack = st ++ [v]) :
    exec (.pop a) s = complete s (store a v ((s.setPc (s.pc + 2)).setStack st)) := by
  rw [exec_pop hfit, popWord_done (s := s.setPc (s.pc + 2)) hst, Micro.bind_done]

/-- A register that takes its own contents is unchanged. -/
@[simp] theorem State.setReg_reg_self (s : State) (j : Fin 8) : s.setReg j (s.reg j) = s := by
  simp [State.setReg, State.reg, State.setX, Vector.get_eq_getElem]

/-! ### set, rmem and wmem -/

theorem exec_set {a : TargetOperand} {b : ValueOperand} {v : Word} (hfit : s.fits 3) (hb : resolve b s = .done v s) :
    exec (.set a b) s = complete s (store a v (s.setPc (s.pc + 3))) :=
  congrArg (complete s) (targetAndValue_resolved hfit hb)

theorem exec_rmem {a : TargetOperand} {b : ValueOperand} {addr : Word} (hfit : s.fits 3) (hb : resolve b s = .done addr s) :
    exec (.rmem a b) s = complete s ((memRead addr (s.setPc (s.pc + 3))).bind (store a)) :=
  congrArg (complete s) (targetAndValue_resolved hfit hb)

theorem exec_rmem_beyond {a : TargetOperand} {b : ValueOperand} {addr : Word} (hfit : s.fits 3) (hb : resolve b s = .done addr s)
    (haddr : 32767 < addr.toNat) :
    exec (.rmem a b) s = complete s (.raised (.invalidAddress .memory addr) (s.setPc (s.pc + 3))) := by
  have hread : memRead addr (s.setPc (s.pc + 3)) = .raised (.invalidAddress .memory addr) (s.setPc (s.pc + 3)) := if_pos haddr
  rw [exec_rmem hfit hb, hread, Micro.bind_raised]

theorem exec_rmem_word {a : TargetOperand} {b : ValueOperand} {addr : Word} (hfit : s.fits 3) (hb : resolve b s = .done addr s)
    (haddr : addr.toNat ≤ 32767) :
    exec (.rmem a b) s = complete s (store a (s.mem.wordAt addr.toNat) (s.setPc (s.pc + 3))) := by
  have hread : memRead addr (s.setPc (s.pc + 3)) = .done (s.mem.wordAt addr.toNat) (s.setPc (s.pc + 3)) := if_neg (by omega)
  rw [exec_rmem hfit hb, hread, Micro.bind_done]

theorem exec_wmem_beyond {a b : ValueOperand} {addr v : Word} (hfit : s.fits 3) (ha : resolve a s = .done addr s)
    (hb : resolve b s = .done v s) (haddr : 32767 < addr.toNat) :
    exec (.wmem a b) s = complete s (.raised (.invalidAddress .memory addr) (s.setPc (s.pc + 3))) :=
  congrArg (complete s) ((twoValues_resolved hfit ha hb).trans (if_pos haddr))

end DataMovementLemmas

/-! ### The statements -/

/-- Settles O40: the frame of an instruction, and at most one pop before the Store. -/
theorem popFrame : Obligations.PopFrame := by
  intro a s t h
  have hfr := exec_frame h
  have hstack : t.stack = s.stack ∨ t.stack = s.stack.dropLast :=
    (exec_pop_poppedAtMostOne h).imp_right fun ⟨v, hv⟩ => by rw [hv, List.dropLast_concat]
  exact ⟨hfr.reg, hfr.mem nofun, hstack, hfr.inq nofun, hfr.outbuf nofun, hfr.hostAnswers nofun, hfr.config,
    hfr.status_eq_or_faulted nofun⟩

/-- Settles O42: the frame of an instruction, and at most one word written, where both operands resolve and the address is in range. -/
theorem wmemFrame : Obligations.WmemFrame := by
  intro a b s t h
  have hfr := exec_frame h
  have hwrote := exec_wmem_wroteAtMost h
  refine ⟨fun addr ha k h0 h1 => hwrote.byteAt_other ha h0 h1, fun addr ha hbig => hwrote.mem_eq fun x v hx _ => ?_,
    fun w hw => hwrote.mem_eq fun x v hx hv => ?_, hfr.reg_eq rfl, hfr.stack rfl, hfr.inq nofun, hfr.outbuf nofun,
    hfr.hostAnswers nofun, hfr.config, hfr.status_eq_or_faulted nofun⟩
  · cases ha.symm.trans hx
    omega
  · rcases hw with rfl | rfl
    · cases hx
    · cases hv

/-- Settles O44: the frame of an instruction that uses the stack, and at most one push or one pop. -/
theorem stackFrame : Obligations.StackFrame := by
  intro a s t i hi h
  have hfr := exec_frame h
  simp only [List.mem_cons, List.not_mem_nil, or_false] at hi
  have hstack : t.stack = s.stack ∨ (i ≠ .ret ∧ ∃ v, t.stack = s.stack ++ [v]) ∨ (i = .ret ∧ ∃ v, s.stack = t.stack ++ [v]) := by
    rcases hi with rfl | rfl | rfl
    · exact (exec_push_pushedAtMostOne h).imp_right fun hv => .inl ⟨nofun, hv⟩
    · exact (exec_call_pushedAtMostOne h).imp_right fun hv => .inl ⟨nofun, hv⟩
    · exact (exec_ret_poppedAtMostOne h).imp_right fun hv => .inr ⟨rfl, hv⟩
  rcases hi with rfl | rfl | rfl
  all_goals exact ⟨hfr.reg_eq rfl, hfr.mem nofun, hfr.inq nofun, hfr.outbuf nofun, hfr.hostAnswers nofun, hfr.config, hstack,
    hfr.status_eq_or_faulted nofun⟩

/-- Settles O59: the push found room, the pop takes the word pushed, and Store writes it as it is. -/
theorem pushThenPopRestores : Obligations.PushThenPopRestores := by
  intro i s t hfit hlaw _ hpush hnf
  have hpc : (s.pc + 2).toNat = s.pc.toNat + 2 := pc_add_toNat 2 (by simp only [State.fits] at hfit; omega)
  have hfit2 : s.fits 2 := by simp only [State.fits] at hfit ⊢; omega
  have hreg : resolve (.register i) s = .done (s.reg i) s := rfl
  by_cases hfull : s.config.stackCapacity = some s.stack.length
  · cases (exec_push_full hfit2 hreg hfull).symm.trans hpush
    exact absurd rfl (hnf ⟨.stackOverflow, s.pc⟩)
  · cases (exec_push_room hfit2 hreg hfull).symm.trans hpush
    have hfit' : ((s.setPc (s.pc + 2)).setStack (s.stack ++ [s.reg i])).fits 2 := by
      simp only [State.fits, State.setStack_pc, State.setPc_pc] at hfit ⊢
      omega
    rw [exec_pop_top hfit' rfl, store_done _ _ rfl, reResolve_of_none _ hlaw, complete_done]
    have hfour : s.pc + 2 + 2 = s.pc + 4 := by rw [BitVec.add_assoc]; rfl
    rw [← hfour]
    exact congrArg Host.Outcome.next (State.setReg_reg_self (s.setPc (s.pc + 2 + 2)) i)

/-- Settles O16: set ends in the Store of the value of b. -/
theorem setFollowsItsRule : Obligations.SetFollowsItsRule := by
  refine fun a b s hfit => ⟨rfl, ?_, fun v hv => exec_of_store (exec_set hfit hv) fun _ => rfl⟩
  rintro w rfl
  exact raises_of_exec (congrArg (complete s) (targetAndValue_invalid hfit))

/-- Settles O17: the value resolves or not, and the stack is full or has room. -/
theorem pushFollowsItsRule : Obligations.PushFollowsItsRule := by
  refine fun a s hfit => ⟨rfl, ?_, fun v hv => ⟨exec_push_full hfit hv, exec_push_room hfit hv⟩⟩
  rintro w rfl
  exact raises_of_exec (congrArg (complete s) (oneValue_invalid hfit))

/-- Settles O18: the pop underflows, or takes the top and ends in its Store. -/
theorem popFollowsItsRule : Obligations.PopFollowsItsRule :=
  fun _ _ hfit => ⟨rfl, fun hempty => raises_of_exec (exec_pop_empty hfit hempty),
    fun _ _ hst => exec_of_store (exec_pop_top hfit hst) fun _ => rfl⟩

/-- Settles O30: the address is out of range, or rmem ends in the Store of the word there. -/
theorem rmemFollowsItsRule : Obligations.RmemFollowsItsRule := by
  refine fun a b s hfit => ⟨rfl, ?_, fun addr hb => ⟨fun hbig => raises_of_exec (exec_rmem_beyond hfit hb hbig), fun haddr => ?_⟩⟩
  · rintro w rfl
    exact raises_of_exec (congrArg (complete s) (targetAndValue_invalid hfit))
  · obtain ⟨hinvalid, hstored⟩ := exec_of_store (exec_rmem_word hfit hb haddr) fun _ => rfl
    refine ⟨hinvalid, ?_⟩
    rintro i hi v rfl
    exact hstored i hi

/-- Settles O31: the first operand that does not resolve, the address out of range, or the word written. -/
theorem wmemFollowsItsRule : Obligations.WmemFollowsItsRule := by
  refine fun a b s hfit => ⟨rfl, ?_, fun addr ha => ⟨?_, fun v hb =>
    ⟨fun hbig => raises_of_exec (exec_wmem_beyond hfit ha hb hbig), fun haddr => ?_⟩⟩⟩
  · rintro w rfl
    exact raises_of_exec (congrArg (complete s) (twoValues_invalid_a hfit))
  · rintro w rfl
    exact raises_of_exec (congrArg (complete s) (twoValues_invalid_b hfit ha))
  · exact ⟨s.mem.setWord addr.toNat v, exec_wmem hfit ha hb haddr, Memory.wordAt_setWord_same s.mem addr.toNat v,
      fun _ hk => Memory.wordAt_setWord_other s.mem v hk⟩

end Sys2Proof.Machine

/-! SUPPORT. The ALU (41_alu.md): the words the operations come to, written out; instructions of formats F3 and F2 with an unresolvable
operand and with resolved ones; and from these the statements of the family. -/

namespace Sys2Proof.Machine

section AluLemmas

variable {s u : State} {i : Instr} {a : TargetOperand} {b c : ValueOperand} {vb vc : Word}

/-! ### The words the operations come to -/

theorem eqWord_eq (v w : Word) : eqWord v w = if v.toNat = w.toNat then 1 else 0 := by
  simp only [eqWord, truthWord, beq_iff_eq, BitVec.toNat_inj]

theorem gtWord_eq (v w : Word) : gtWord v w = if w.toNat < v.toNat then 1 else 0 := by
  simp only [gtWord, truthWord, decide_eq_true_eq]

theorem andWord_eq (v w : Word) : andWord v w = BitVec.ofNat 16 ((v.toNat &&& w.toNat) % 32768) := by
  rw [andWord, reduced, BitVec.toNat_and]

theorem orWord_eq (v w : Word) : orWord v w = BitVec.ofNat 16 ((v.toNat ||| w.toNat) % 32768) := by
  rw [orWord, reduced, BitVec.toNat_or]

theorem notWord_eq (v : Word) : notWord v = BitVec.ofNat 16 (32767 - v.toNat % 32768) := by
  rw [← notWord_toNat, BitVec.ofNat_toNat, BitVec.setWidth_eq]

/-- The complement is its own inverse on 15-bit values (41_alu.md R64). -/
theorem notWord_notWord {v : Word} (h : v.toNat ≤ 32767) : notWord (notWord v) = v := by
  apply BitVec.eq_of_toNat_eq
  rw [notWord_toNat, notWord_toNat]
  omega

theorem moduloEffect_zero (v : Word) (s : State) : moduloEffect v 0 s = .raised .divideByZero s := if_pos rfl

theorem moduloEffect_done (v : Word) {w : Word} (s : State) (h : w ≠ 0) : moduloEffect v w s = .done (moduloWord v w) s := if_neg h

/-! ### An instruction that ends in the Store of a word that is no register reference -/

/-- Store writes such a word as it is (30_encoding.md R40, 41_alu.md R56). -/
theorem exec_of_store_exact {v : Word} (hi : exec i s = complete s (store a v u)) (hv : reResolve v u = v) :
    (∀ w, a = .invalid w → Raises i s (.invalidAddress .target w)) ∧
    ∀ r, targetRegister a = some r → exec i s = .next (u.setReg r v) := by
  refine ⟨?_, fun r hr => ?_⟩
  · rintro w rfl
    exact raises_of_exec hi
  · rw [hi, store_done v u hr, hv, complete_done]

/-! ### Format F3: a raw target and two values -/

section ThreeOperands

variable {eff : Word → Word → State → Micro Word} (hi : exec i s = complete s (threeOperands eff a b c s)) (hfit : s.fits 4)
include hi hfit

theorem raises_of_invalid_b (w : Word) (hb : b = .invalid w) : Raises i s (.invalidAddress .operand w) := by
  subst hb
  exact raises_of_exec (hi.trans (congrArg (complete s) (threeOperands_invalid_b hfit)))

theorem raises_of_invalid_c (hb : resolve b s = .done vb s) (w : Word) (hc : c = .invalid w) :
    Raises i s (.invalidAddress .operand w) := by
  subst hc
  exact raises_of_exec (hi.trans (congrArg (complete s) (threeOperands_invalid_c hfit hb)))

theorem exec_threeOperands (hb : resolve b s = .done vb s) (hc : resolve c s = .done vc s) :
    exec i s = complete s ((eff vb vc (s.setPc (s.pc + 4))).bind (store a)) :=
  hi.trans (congrArg (complete s) (threeOperands_resolved hfit hb hc))

end ThreeOperands

/-- What 41_alu.md says of every instruction of format F3 whose effect is a function `f` of the two values, and whose results are no
register references: eq, gt, add, mul, and, or. -/
theorem exec_threeOperands_pure {f : Word → Word → Word} (hf : ∀ v w t, reResolve (f v w) t = f v w)
    (hi : exec i s = complete s (threeOperands (fun v w t => .done (f v w) t) a b c s)) (hfit : s.fits 4) :
    (∀ w, b = .invalid w → Raises i s (.invalidAddress .operand w)) ∧
    ∀ vb, resolve b s = .done vb s →
      (∀ w, c = .invalid w → Raises i s (.invalidAddress .operand w)) ∧
      ∀ vc, resolve c s = .done vc s →
        (∀ w, a = .invalid w → Raises i s (.invalidAddress .target w)) ∧
        ∀ r, targetRegister a = some r → exec i s = .next ((s.setPc (s.pc + 4)).setReg r (f vb vc)) :=
  ⟨raises_of_invalid_b hi hfit, fun _ hb => ⟨raises_of_invalid_c hi hfit hb, fun _ hc =>
    exec_of_store_exact (exec_threeOperands hi hfit hb hc) (hf _ _ _)⟩⟩

/-! ### modulo and not -/

theorem exec_modulo_zero (hfit : s.fits 4) (hb : resolve b s = .done vb s) (hc : resolve c s = .done 0 s) :
    exec (.modulo a b c) s = complete s (.raised .divideByZero (s.setPc (s.pc + 4))) := by
  rw [exec_threeOperands rfl hfit hb hc, moduloEffect_zero, Micro.bind_raised]

theorem exec_modulo (hfit : s.fits 4) (hb : resolve b s = .done vb s) (hc : resolve c s = .done vc s) (hne : vc ≠ 0) :
    exec (.modulo a b c) s = complete s (store a (moduloWord vb vc) (s.setPc (s.pc + 4))) := by
  rw [exec_threeOperands rfl hfit hb hc, moduloEffect_done vb _ hne, Micro.bind_done]

theorem exec_not (hfit : s.fits 3) (hb : resolve b s = .done vb s) :
    exec (.not a b) s = complete s (store a (notWord vb) (s.setPc (s.pc + 3))) :=
  congrArg (complete s) (targetAndValue_resolved hfit hb)

end AluLemmas

/-! ### The statements -/

/-- Settles O19: eq compares all 16 bits, and its result 0 or 1 is stored as it is. -/
theorem eqFollowsItsRule : Obligations.EqFollowsItsRule := fun a b c s hfit =>
  ⟨rfl, by simpa only [eqWord_eq] using
    exec_threeOperands_pure (i := .eq a b c) (f := eqWord) (fun _ _ => reResolve_truthWord _) rfl hfit⟩

/-- Settles O20: gt compares the words as numbers, and its result 0 or 1 is stored as it is. -/
theorem gtFollowsItsRule : Obligations.GtFollowsItsRule := fun a b c s hfit =>
  ⟨rfl, by simpa only [gtWord_eq] using
    exec_threeOperands_pure (i := .gt a b c) (f := gtWord) (fun _ _ => reResolve_truthWord _) rfl hfit⟩

/-- Settles O24: a sum reduced mod 32768 is stored as it is. -/
theorem addFollowsItsRule : Obligations.AddFollowsItsRule := fun _ _ _ _ hfit =>
  ⟨rfl, exec_threeOperands_pure (f := addWord) (fun _ _ => reResolve_reduced _) rfl hfit⟩

/-- Settles O25: a product reduced mod 32768 is stored as it is. -/
theorem mulFollowsItsRule : Obligations.MulFollowsItsRule := fun _ _ _ _ hfit =>
  ⟨rfl, exec_threeOperands_pure (f := mulWord) (fun _ _ => reResolve_reduced _) rfl hfit⟩

/-- Settles O26: the effect of modulo comes after both operands and before the Store, so a divisor 0 is reported before a bad target. -/
theorem moduloFollowsItsRule : Obligations.ModuloFollowsItsRule := by
  refine fun a b c s hfit => ⟨rfl, raises_of_invalid_b rfl hfit, fun vb hb => ⟨raises_of_invalid_c rfl hfit hb, fun vc hc =>
    ⟨?_, fun hne => exec_of_store_exact (exec_modulo hfit hb hc hne) (reResolve_reduced _ _)⟩⟩⟩
  rintro rfl
  exact raises_of_exec (exec_modulo_zero hfit hb hc)

/-- Settles O27: the AND is taken on all 16 bits, then reduced mod 32768. -/
theorem andFollowsItsRule : Obligations.AndFollowsItsRule := fun a b c s hfit =>
  ⟨rfl, by simpa only [andWord_eq] using
    exec_threeOperands_pure (i := .and a b c) (f := andWord) (fun _ _ => reResolve_reduced _) rfl hfit⟩

/-- Settles O28: the OR is taken on all 16 bits, then reduced mod 32768. -/
theorem orFollowsItsRule : Obligations.OrFollowsItsRule := fun a b c s hfit =>
  ⟨rfl, by simpa only [orWord_eq] using
    exec_threeOperands_pure (i := .or a b c) (f := orWord) (fun _ _ => reResolve_reduced _) rfl hfit⟩

/-- Settles O29: not stores the 15-bit complement, which both forms of the rule come to. -/
theorem notFollowsItsRule : Obligations.NotFollowsItsRule := by
  refine ⟨fun a b s hfit => ⟨rfl, ?_, fun vb hb => ?_⟩, fun _ hv => notWord_notWord hv⟩
  · rintro w rfl
    exact raises_of_exec (congrArg (complete s) (targetAndValue_invalid hfit))
  · obtain ⟨hinvalid, hstored⟩ := exec_of_store_exact (exec_not hfit hb) (reResolve_notWord _ _)
    exact ⟨hinvalid, fun r hr => ⟨notWord_eq vb ▸ hstored r hr, hstored r hr⟩⟩

end Sys2Proof.Machine

/-! SUPPORT. Control transfer (42_control.md): the frame of the instructions that touch neither registers, memory, stack nor queue; what
each transfer comes to when its words lie in memory; a step that changes nothing; and from these the statements of the family. -/

namespace Sys2Proof.Machine

section ControlLemmas

variable {s t : State} {i : Instr} {a b : ValueOperand} {v : Word}

/-- An instruction of one word inside memory. -/
theorem pc_le_of_fits_one (hfit : s.fits 1) : s.pc.toNat ≤ 32767 := Nat.le_of_lt_succ hfit

/-! ### The frame of halt, jmp, jt, jf, noop and out -/

/-- An instruction that names no target, neither pushes nor pops, stores no word and takes no input. -/
structure OnlyControlOrOut (i : Instr) : Prop where
  target : targetOf i = none
  stack : usesStack i = false
  wmem : ∀ a b, i ≠ .wmem a b
  input : ∀ a, i ≠ .input a

theorem onlyControlOrOut_of_mem (h : i ∈ [Instr.halt, .jmp a, .jt a b, .jf a b, .noop, .out a]) : OnlyControlOrOut i := by
  simp only [List.mem_cons, List.not_mem_nil, or_false] at h
  rcases h with rfl | rfl | rfl | rfl | rfl | rfl <;> exact ⟨rfl, rfl, nofun, nofun⟩

/-- The one `out` among them is the one whose operand is `a`. -/
theorem out_operand_of_mem {x : ValueOperand} (h : Instr.out x ∈ [Instr.halt, .jmp a, .jt a b, .jf a b, .noop, .out a]) :
    x = a := by
  simpa using h

/-! ### jmp, jt and jf -/

/-- The override of pc is the last micro-step, and the target is not checked (42_control.md R65, R67). -/
theorem exec_jmp (hfit : s.fits 2) (ha : resolve a s = .done v s) : exec (.jmp a) s = .next (s.setPc v) :=
  congrArg (complete s) (oneValue_resolved hfit ha)

@[simp] theorem isNonzero_eq_true {w : Word} : isNonzero w = true ↔ w ≠ 0 := bne_iff_ne

@[simp] theorem isNonzero_eq_false {w : Word} : isNonzero w = false ↔ w = 0 := bne_eq_false_iff_eq

/-- What 42_control.md R68 and R69 say of a conditional jump whose words lie in memory, whatever its condition: both operands are
resolved, in order, before the condition decides. -/
theorem exec_conditionalJump {taken : Word → Bool} (hi : exec i s = complete s (conditionalJump taken a b s)) (hfit : s.fits 3) :
    (∀ w, a = .invalid w → Raises i s (.invalidAddress .operand w)) ∧
    ∀ va, resolve a s = .done va s →
      (∀ w, b = .invalid w → Raises i s (.invalidAddress .operand w)) ∧
      ∀ vb, resolve b s = .done vb s → exec i s = .next (s.setPc (if taken va then vb else s.pc + 3)) := by
  refine ⟨?_, fun va ha => ⟨?_, fun vb hb => ?_⟩⟩
  · rintro w rfl
    exact raises_of_exec (hi.trans (congrArg (complete s) (conditionalJump_invalid_a hfit)))
  · rintro w rfl
    exact raises_of_exec (hi.trans (congrArg (complete s) (conditionalJump_invalid_b hfit ha)))
  · rw [hi, conditionalJump_resolved hfit ha hb, complete_done]

/-! ### call and ret -/

/-- The word pushed is the pc past both words of the call (42_control.md R70). -/
theorem exec_call (hfit : s.fits 2) (ha : resolve a s = .done v s) :
    exec (.call a) s =
      complete s ((pushWord (s.pc + 2) (s.setPc (s.pc + 2))).bind fun _ u => .done () (u.setPc v)) :=
  congrArg (complete s) (oneValue_resolved hfit ha)

theorem exec_call_invalid {w : Word} (hfit : s.fits 2) :
    exec (.call (.invalid w)) s = .next (takeFault (.invalidAddress .operand w) s.pc (s.setPc (s.pc + 2))) :=
  congrArg (complete s) (oneValue_invalid hfit)

theorem exec_call_full (hfit : s.fits 2) (ha : resolve a s = .done v s) (hfull : s.config.stackCapacity = some s.stack.length) :
    exec (.call a) s = .next (takeFault .stackOverflow s.pc (s.setPc (s.pc + 2))) := by
  rw [exec_call hfit ha, pushWord_raised (s := s.setPc (s.pc + 2)) _ hfull, Micro.bind_raised, complete_raised]

theorem exec_call_room (hfit : s.fits 2) (ha : resolve a s = .done v s) (hroom : s.config.stackCapacity ≠ some s.stack.length) :
    exec (.call a) s = .next ((s.setPc v).setStack (s.stack ++ [s.pc + 2])) := by
  rw [exec_call hfit ha, pushWord_done (s := s.setPc (s.pc + 2)) _ hroom, Micro.bind_done, complete_done]
  rfl

/-- A call inside memory that does not fault resolved its operand, found room and pushed the address after it. -/
theorem exec_call_stack (hfit : s.fits 2) (h : exec (.call a) s = .next t) (hnf : ∀ r, t.status ≠ .faulted r) :
    t.stack = s.stack ++ [s.pc + 2] := by
  rcases resolve_spec a s with ⟨v, ha, -⟩ | ⟨w, rfl, -⟩
  · by_cases hfull : s.config.stackCapacity = some s.stack.length
    · cases (exec_call_full hfit ha hfull).symm.trans h
      exact absurd rfl (hnf ⟨.stackOverflow, s.pc⟩)
    · cases (exec_call_room hfit ha hfull).symm.trans h
      rfl
  · cases (exec_call_invalid hfit).symm.trans h
    exact absurd rfl (hnf ⟨.invalidAddress .operand w, s.pc⟩)

theorem exec_ret (hfit : s.fits 1) :
    exec .ret s = complete s ((popWord (s.setPc (s.pc + 1))).bind fun v u => .done () (u.setPc v)) :=
  congrArg (complete s) (fetchWord_bind (n := 0) hfit _)

theorem exec_ret_empty (hfit : s.fits 1) (hst : s.stack = []) :
    exec .ret s = complete s (.raised .stackUnderflow (s.setPc (s.pc + 1))) := by
  rw [exec_ret hfit, popWord_raised (s := s.setPc (s.pc + 1)) hst, Micro.bind_raised]

/-- The word popped is taken as it is (42_control.md R71). -/
theorem exec_ret_top {st : List Word} (hfit : s.fits 1) (hst : s.stack = st ++ [v]) :
    exec .ret s = .next ((s.setPc v).setStack st) := by
  rw [exec_ret hfit, popWord_done (s := s.setPc (s.pc + 1)) hst, Micro.bind_done, complete_done]
  rfl

/-! ### A step that changes nothing -/

/-- A step that answers the state it started in does so however often it is taken. -/
theorem run_of_step_self (h : step s = .next s) (k : Nat) : Host.Core.run core k s = .next s := by
  induction k with
  | zero => exact run_zero s
  | succ k ih => rw [run_succ_next k h, ih]

/-- Such a run is safe: a state that a step starts in is Running. -/
theorem safe_of_step_self (h : step s = .next s) : s.safe := by
  intro k t ht r hr
  have hrun : s.status = .running := (step_eq_next h).1
  cases (run_of_step_self h k).symm.trans ht
  rw [hrun] at hr
  cases hr

/-- The word 6 at pc and the word after it, both in memory, are a jmp. -/
theorem standsAtPc_jmp (hfit : s.fits 2) (h : s.mem.wordAt s.pc.toNat = 6) :
    StandsAtPc (.jmp (.ofWord (s.mem.wordAt (s.pc.toNat + 1)))) s where
  fits := hfit
  words k hk := by
    match k, hk with
    | 0, _ => exact h
    | 1, _ => exact (ValueOperand.word_ofWord _).symm

end ControlLemmas

/-! ### The statements -/

/-- Settles O43, from the frame of these instructions. -/
theorem controlAndOutFrame : Obligations.ControlAndOutFrame := by
  intro a b s t i hi h
  have hfr := exec_frame h
  obtain ⟨htarget, hstack, hwmem, hinput⟩ := onlyControlOrOut_of_mem hi
  have hout : i ≠ .out a → t.outbuf = s.outbuf := fun hne => hfr.outbuf fun x e => by
    subst e
    exact hne (congrArg Instr.out (out_operand_of_mem hi))
  exact ⟨hfr.reg_eq htarget, hfr.mem hwmem, hfr.stack hstack, hfr.inq hinput, hfr.hostAnswers hinput, hfr.config, hout, hfr.status⟩

/-- Settles O58: the top of the stack the call left is the address after it, and ret takes it off. -/
theorem callThenRetReturns : Obligations.CallThenRetReturns :=
  fun _ _ _ _ hfit hcall hnf hstack hfit' => exec_ret_top hfit' (hstack.trans (exec_call_stack hfit hcall hnf))

/-- Settles O60: the step is the jmp, which sets pc to where it stands. -/
theorem jmpToItselfRunsForever : Obligations.JmpToItselfRunsForever := by
  intro s hrun hfit hop hself
  have hstep : step s = .next s := by
    rw [(standsAtPc_jmp hfit hop).step_eq_exec hrun (ValueOperand.wf_ofWord _), exec_jmp hfit hself]
    rfl
  exact ⟨run_of_step_self hstep, safe_of_step_self hstep⟩

/-- Settles O15: halt fetches its one word and sets the status, in which no step is enabled. -/
theorem haltFollowsItsRule : Obligations.HaltFollowsItsRule :=
  ⟨rfl, fun _ hfit => ⟨exec_halt (pc_le_of_fits_one hfit), step_of_halted rfl⟩⟩

/-- Settles O21: jmp takes the value as pc, and the fetch above 32767 is the one that faults. -/
theorem jmpFollowsItsRule : Obligations.JmpFollowsItsRule := by
  refine fun a s hfit => ⟨rfl, ?_, fun v ha => ⟨exec_jmp hfit ha, fun hrun hv => (fetchBeyondMemoryFaults (s.setPc v) hrun).1 hv⟩⟩
  rintro w rfl
  exact raises_of_exec (congrArg (complete s) (oneValue_invalid hfit))

/-- Settles O22: a conditional jump taken where the word is not 0. -/
theorem jtFollowsItsRule : Obligations.JtFollowsItsRule := fun a b s hfit =>
  ⟨rfl, by simpa only [isNonzero_eq_true, ne_eq, ite_not] using exec_conditionalJump (i := .jt a b) rfl hfit⟩

/-- Settles O23: a conditional jump taken where the word is 0. -/
theorem jfFollowsItsRule : Obligations.JfFollowsItsRule := fun a b s hfit =>
  ⟨rfl, by simpa only [Bool.not_eq_true', isNonzero_eq_false] using exec_conditionalJump (i := .jf a b) rfl hfit⟩

/-- Settles O32: the value resolves or not, and the stack is full or has room. -/
theorem callFollowsItsRule : Obligations.CallFollowsItsRule := by
  refine fun a s hfit => ⟨rfl, ?_, fun v ha => ⟨exec_call_full hfit ha, exec_call_room hfit ha⟩⟩
  rintro w rfl
  exact exec_call_invalid hfit

/-- Settles O33: the pop underflows, or its word becomes pc. -/
theorem retFollowsItsRule : Obligations.RetFollowsItsRule :=
  ⟨rfl, fun _ hfit => ⟨fun hempty => raises_of_exec (exec_ret_empty hfit hempty), fun _ _ hst => exec_ret_top hfit hst⟩⟩

/-- Settles O37: noop fetches its one word and does nothing else. -/
theorem noopFollowsItsRule : Obligations.NoopFollowsItsRule := ⟨rfl, fun _ hfit => exec_noop (pc_le_of_fits_one hfit)⟩

end Sys2Proof.Machine

/-! SUPPORT. Character input and output (43_io.md): the output emitted before as something no micro-step looks at; what input takes of
the queue and of the host; what out and input come to when their words lie in memory; and from these the statements of the family. -/

namespace Sys2Proof.Machine

/-! ### The byte input takes (43_io.md R76) -/

section TakeInputByte

variable {s : State}

theorem takeInputByte_queued {ch : Byte} {q : List Byte} (hq : s.inq = ch :: q) : takeInputByte s = .done ch (s.setInq q) := by
  simp [takeInputByte, hq]

theorem takeInputByte_line {ch : Byte} {bs : List Byte} {hs : List HostAnswer} (hq : s.inq = [])
    (hh : s.hostAnswers = .line ch bs :: hs) :
    takeInputByte s = .done (lower ch) ((s.setHostAnswers hs).setInq (bs.map lower)) := by
  simp [takeInputByte, hq, hh]

theorem takeInputByte_eof {hs : List HostAnswer} (hq : s.inq = []) (hh : s.hostAnswers = .eof :: hs) :
    takeInputByte s = .raised .endOfInput (s.setHostAnswers hs) := by
  simp [takeInputByte, hq, hh]

theorem takeInputByte_waiting (hq : s.inq = []) (hh : s.hostAnswers = []) : takeInputByte s = .waiting := by
  simp [takeInputByte, hq, hh]

end TakeInputByte

section OutputHistory

/-! ### Output emitted before: no micro-step looks at it -/

/-- `s`, had it emitted the bytes `o` before those of its output. -/
def State.emittedBefore (o : List Byte) (s : State) : State := s.setOutbuf (o ++ s.outbuf)

/-- The micro-steps `m` with the state they leave changed by `φ`. -/
def Micro.mapState {α : Type} (φ : State → State) : Micro α → Micro α
  | .done a s => .done a (φ s)
  | .raised c s => .raised c (φ s)
  | .waiting => .waiting

/-- The micro-steps `m` come to the same whatever was emitted before them, and leave it in front of the output. -/
def OutputBlind {α : Type} (m : State → Micro α) : Prop :=
  ∀ o s, m (s.emittedBefore o) = (m s).mapState (State.emittedBefore o)

variable {α β : Type} {s t : State} {i : Instr} {o : List Byte}

theorem OutputBlind.bind {m : State → Micro α} {f : α → State → Micro β} (hm : OutputBlind m) (hf : ∀ a, OutputBlind (f a)) :
    OutputBlind fun s => (m s).bind f := by
  intro o s
  simp only [hm o s]
  cases m s with
  | done a u => exact hf a o u
  | raised c u => rfl
  | waiting => rfl

/-- A test that does not look at the output, between micro-steps that do not. -/
theorem OutputBlind.ite {c : State → Prop} [DecidablePred c] {m n : State → Micro α} (hc : ∀ o s, c (s.emittedBefore o) ↔ c s)
    (hm : OutputBlind m) (hn : OutputBlind n) : OutputBlind fun s => if c s then m s else n s := by
  intro o s
  simp only [hc o s]
  split
  · exact hm o s
  · exact hn o s

theorem fetchWord_outputBlind : OutputBlind fetchWord :=
  .ite (fun _ _ => .rfl) (fun _ _ => rfl) fun _ _ => rfl

theorem resolve_outputBlind (a : ValueOperand) : OutputBlind (resolve a) := by
  intro o s
  cases a <;> rfl

theorem valueOperand_outputBlind (a : ValueOperand) : OutputBlind (valueOperand a) :=
  fetchWord_outputBlind.bind fun _ => resolve_outputBlind a

theorem targetOperand_outputBlind (a : TargetOperand) : OutputBlind (targetOperand a) :=
  fetchWord_outputBlind.bind fun _ _ _ => rfl

theorem store_outputBlind (a : TargetOperand) (v : Word) : OutputBlind (store a v) := by
  intro o s
  cases a <;> rfl

theorem pushWord_outputBlind (v : Word) : OutputBlind (pushWord v) :=
  .ite (fun _ _ => .rfl) (fun _ _ => rfl) fun _ _ => rfl

theorem popWord_outputBlind : OutputBlind popWord := by
  intro o s
  rcases popWord_spec s with ⟨st, v, hst, e⟩ | ⟨hst, e⟩ <;> rw [e]
  · exact popWord_done hst
  · exact popWord_raised hst

theorem memRead_outputBlind (addr : Word) : OutputBlind (memRead addr) :=
  .ite (fun _ _ => .rfl) (fun _ _ => rfl) fun _ _ => rfl

theorem memWrite_outputBlind (addr v : Word) : OutputBlind (memWrite addr v) :=
  .ite (fun _ _ => .rfl) (fun _ _ => rfl) fun _ _ => rfl

theorem moduloEffect_outputBlind (v w : Word) : OutputBlind (moduloEffect v w) :=
  .ite (fun _ _ => .rfl) (fun _ _ => rfl) fun _ _ => rfl

/-- The byte emitted now comes after all those emitted before. -/
theorem hostOut_outputBlind (ch : Byte) : OutputBlind (hostOut ch) := fun o s =>
  congrArg (fun out => Micro.done () (s.setOutbuf out)) (List.append_assoc o s.outbuf [ch])

theorem takeInputByte_outputBlind : OutputBlind takeInputByte := by
  intro o s
  rcases takeInputByte_spec s with ⟨ch, q, hq, e⟩ | ⟨ch, bs, hs, hq, hh, e⟩ | ⟨hs, hq, hh, e⟩ | ⟨hq, hh, e⟩ <;> rw [e]
  · exact takeInputByte_queued hq
  · exact takeInputByte_line hq hh
  · exact takeInputByte_eof hq hh
  · exact takeInputByte_waiting hq hh

theorem threeOperands_outputBlind {eff : Word → Word → State → Micro Word} (heff : ∀ v w, OutputBlind (eff v w))
    (a : TargetOperand) (b c : ValueOperand) : OutputBlind (threeOperands eff a b c) :=
  fetchWord_outputBlind.bind fun _ => (targetOperand_outputBlind a).bind fun a => (valueOperand_outputBlind b).bind fun v =>
    (valueOperand_outputBlind c).bind fun w => (heff v w).bind fun x => store_outputBlind a x

theorem targetAndValue_outputBlind {eff : Word → State → Micro Word} (heff : ∀ v, OutputBlind (eff v)) (a : TargetOperand)
    (b : ValueOperand) : OutputBlind (targetAndValue eff a b) :=
  fetchWord_outputBlind.bind fun _ => (targetOperand_outputBlind a).bind fun a => (valueOperand_outputBlind b).bind fun v =>
    (heff v).bind fun x => store_outputBlind a x

/-- push, jmp, call and out. -/
theorem oneValue_outputBlind {f : Word → State → Micro α} (a : ValueOperand) (hf : ∀ v, OutputBlind (f v)) :
    OutputBlind fun s => (fetchWord s).bind fun _ s => (valueOperand a s).bind f :=
  fetchWord_outputBlind.bind fun _ => (valueOperand_outputBlind a).bind hf

/-- pop and input. -/
theorem oneTarget_outputBlind {f : TargetOperand → State → Micro α} (a : TargetOperand) (hf : ∀ b, OutputBlind (f b)) :
    OutputBlind fun s => (fetchWord s).bind fun _ s => (targetOperand a s).bind f :=
  fetchWord_outputBlind.bind fun _ => (targetOperand_outputBlind a).bind hf

/-- wmem and the conditional jumps. -/
theorem twoValues_outputBlind {f : Word → Word → State → Micro α} (a b : ValueOperand) (hf : ∀ v w, OutputBlind (f v w)) :
    OutputBlind fun s => (fetchWord s).bind fun _ s => (valueOperand a s).bind fun v s => (valueOperand b s).bind (f v) :=
  oneValue_outputBlind a fun v => (valueOperand_outputBlind b).bind (hf v)

theorem conditionalJump_outputBlind (taken : Word → Bool) (a b : ValueOperand) : OutputBlind (conditionalJump taken a b) := by
  refine twoValues_outputBlind a b fun cond v o s => ?_
  cases taken cond <;> rfl

/-- Every instruction is made of micro-steps that do not look at the output. -/
theorem exec_outputBlind (i : Instr) : ∃ m, (∀ s, exec i s = complete s (m s)) ∧ OutputBlind m := by
  have pure : ∀ (f : Word → Word → Word) (a : TargetOperand) (b c : ValueOperand),
      OutputBlind (threeOperands (fun v w t => .done (f v w) t) a b c) :=
    fun f => threeOperands_outputBlind fun _ _ _ _ => rfl
  cases i with
  | halt => exact ⟨_, fun _ => rfl, fetchWord_outputBlind.bind fun _ _ _ => rfl⟩
  | noop => exact ⟨_, fun _ => rfl, fetchWord_outputBlind⟩
  | set a b => exact ⟨_, fun _ => rfl, targetAndValue_outputBlind (fun _ _ _ => rfl) a b⟩
  | not a b => exact ⟨_, fun _ => rfl, targetAndValue_outputBlind (fun _ _ _ => rfl) a b⟩
  | rmem a b => exact ⟨_, fun _ => rfl, targetAndValue_outputBlind memRead_outputBlind a b⟩
  | eq a b c => exact ⟨_, fun _ => rfl, pure eqWord a b c⟩
  | gt a b c => exact ⟨_, fun _ => rfl, pure gtWord a b c⟩
  | add a b c => exact ⟨_, fun _ => rfl, pure addWord a b c⟩
  | mul a b c => exact ⟨_, fun _ => rfl, pure mulWord a b c⟩
  | and a b c => exact ⟨_, fun _ => rfl, pure andWord a b c⟩
  | or a b c => exact ⟨_, fun _ => rfl, pure orWord a b c⟩
  | modulo a b c => exact ⟨_, fun _ => rfl, threeOperands_outputBlind moduloEffect_outputBlind a b c⟩
  | jt a b => exact ⟨_, fun _ => rfl, conditionalJump_outputBlind _ a b⟩
  | jf a b => exact ⟨_, fun _ => rfl, conditionalJump_outputBlind _ a b⟩
  | wmem a b => exact ⟨_, fun _ => rfl, twoValues_outputBlind a b memWrite_outputBlind⟩
  | push a => exact ⟨_, fun _ => rfl, oneValue_outputBlind a pushWord_outputBlind⟩
  | jmp a => exact ⟨_, fun _ => rfl, oneValue_outputBlind a fun _ _ _ => rfl⟩
  | out a => exact ⟨_, fun _ => rfl, oneValue_outputBlind a fun v => hostOut_outputBlind (lowByte v)⟩
  | call a =>
    have hpush : OutputBlind fun s => pushWord s.pc s := fun o s => pushWord_outputBlind s.pc o s
    exact ⟨_, fun _ => rfl, oneValue_outputBlind a fun v => hpush.bind fun _ _ _ => rfl⟩
  | ret => exact ⟨_, fun _ => rfl, fetchWord_outputBlind.bind fun _ => popWord_outputBlind.bind fun _ _ _ => rfl⟩
  | pop a => exact ⟨_, fun _ => rfl, oneTarget_outputBlind a fun b => popWord_outputBlind.bind (store_outputBlind b)⟩
  | input a =>
    exact ⟨_, fun _ => rfl, oneTarget_outputBlind a fun b => takeInputByte_outputBlind.bind fun _ => store_outputBlind b _⟩

/-- Completing an instruction does not look at the output either: it takes effect, faults or waits as before. -/
theorem exec_emittedBefore (o : List Byte) (h : exec i s = .next t) : exec i (s.emittedBefore o) = .next (t.emittedBefore o) := by
  obtain ⟨m, hi, hm⟩ := exec_outputBlind i
  rw [hi] at h
  rw [hi, hm o s]
  rcases complete_eq_next.1 h with e | ⟨c, u, e, rfl⟩ | ⟨e, rfl⟩ <;> rw [e] <;> rfl

/-- The fetch reads memory at pc, not the output. -/
theorem fetchInstr_emittedBefore (o : List Byte) (h : fetchInstr s = .done i s) :
    fetchInstr (s.emittedBefore o) = .done i (s.emittedBefore o) := by
  rcases fetchInstr_spec s with ⟨-, e⟩ | ⟨-, -, e⟩ | ⟨j, hp, -, hdec, e⟩
  · cases e.symm.trans h
  · cases e.symm.trans h
  · cases e.symm.trans h
    exact fetchInstr_of_decodeWords (s := s.emittedBefore o) hp hdec

end OutputHistory

section InputOutputLemmas

variable {s t u : State} {a : ValueOperand} {b : TargetOperand} {v : Word} {ch : Byte}

/-! ### What input takes, and what out emits, wherever they stand -/

/-- From `s` to `u` at most one thing was taken (43_io.md R76): none; or the head of the queue; or, the queue having been empty, the
host's oldest answer, whose line may fill the queue. -/
def TookAtMostOne (s u : State) : Prop :=
  (u.inq = s.inq ∧ u.hostAnswers = s.hostAnswers) ∨
  (u.inq = s.inq.tail ∧ u.hostAnswers = s.hostAnswers) ∨
  (s.inq = [] ∧ ∃ r, s.hostAnswers = r :: u.hostAnswers)

theorem takeInputByte_tookAtMostOne (p : Word) : (takeInputByte (s.setPc p)).Holds (TookAtMostOne s) := by
  rcases takeInputByte_spec (s.setPc p) with ⟨ch, q, hq, e⟩ | ⟨ch, bs, hs, hq, hh, e⟩ | ⟨hs, hq, hh, e⟩ | ⟨-, -, e⟩ <;> rw [e]
  · exact .inr (.inl ⟨(congrArg List.tail hq).symm, rfl⟩)
  · exact .inr (.inr ⟨hq, _, hh⟩)
  · exact .inr (.inr ⟨hq, _, hh⟩)
  · trivial

theorem exec_input_tookAtMostOne (h : exec (.input b) s = .next t) : TookAtMostOne s t := by
  refine complete_keeps h (.inl ⟨rfl, rfl⟩) (oneTarget_holds (fun _ => .inl ⟨rfl, rfl⟩) fun p => ?_) fun _ _ hu => hu
  exact (takeInputByte_tookAtMostOne p).bind fun _ _ hu => store_holds b _ hu fun _ _ => hu

/-- The host is asked only where the queue is empty, and for one answer. -/
theorem TookAtMostOne.hostAnswers (h : TookAtMostOne s u) :
    u.hostAnswers = s.hostAnswers ∨ (s.inq = [] ∧ ∃ r, s.hostAnswers = r :: u.hostAnswers) := by
  rcases h with ⟨-, hh⟩ | ⟨-, hh⟩ | hh
  · exact .inl hh
  · exact .inl hh
  · exact .inr hh

theorem TookAtMostOne.inq (h : TookAtMostOne s u) (hne : s.inq ≠ []) : u.inq = s.inq ∨ u.inq = s.inq.tail := by
  rcases h with ⟨hq, -⟩ | ⟨hq, -⟩ | ⟨hempty, -⟩
  · exact .inl hq
  · exact .inr hq
  · exact absurd hempty hne

/-- The output of `u` is that of `s`, or has one byte more at its end (43_io.md R73). -/
def EmittedAtMostOne (s u : State) : Prop := u.outbuf = s.outbuf ∨ ∃ ch, u.outbuf = s.outbuf ++ [ch]

theorem exec_out_emittedAtMostOne (h : exec (.out a) s = .next t) : EmittedAtMostOne s t :=
  complete_keeps h (.inl rfl) (oneValue_holds (fun _ => .inl rfl) fun v _ => .inr ⟨lowByte v, rfl⟩) fun _ _ hu => hu

/-! ### out -/

theorem lowByte_eq (v : Word) : lowByte v = BitVec.ofNat 8 (v.toNat % 256) := by
  rw [← lowByte_toNat, BitVec.ofNat_toNat, BitVec.setWidth_eq]

theorem exec_out (hfit : s.fits 2) (ha : resolve a s = .done v s) :
    exec (.out a) s = .next ((s.setPc (s.pc + 2)).setOutbuf (s.outbuf ++ [BitVec.ofNat 8 (v.toNat % 256)])) := by
  rw [← lowByte_eq]
  exact congrArg (complete s) (oneValue_resolved hfit ha)

theorem exec_out_invalid {w : Word} (hfit : s.fits 2) :
    exec (.out (.invalid w)) s = .next (takeFault (.invalidAddress .operand w) s.pc (s.setPc (s.pc + 2))) :=
  congrArg (complete s) (oneValue_invalid hfit)

/-- The opcode word at the last address: the fetch of the operand word faults (30_encoding.md R44). -/
theorem exec_out_at_last_address (hp : s.pc.toNat = 32767) :
    exec (.out a) s = .next (takeFault (.invalidAddress .fetch 32768) s.pc (s.setPc 32768)) := by
  have hpc : s.pc + 1 = 32768 := BitVec.eq_of_toNat_eq ((pc_succ_toNat (by omega)).trans (by rw [hp]; rfl))
  have hfetch : fetchWord (s.setPc 32768) = .raised (.invalidAddress .fetch 32768) (s.setPc 32768) :=
    fetchWord_raised (show 32767 < (32768 : Word).toNat by decide)
  refine congrArg (complete s) (?_ : _ = .raised (.invalidAddress .fetch 32768) (s.setPc 32768))
  rw [fetchWord_bind (n := 0) (by omega), hpc, valueOperand, hfetch, Micro.bind_raised, Micro.bind_raised]

/-! ### input -/

theorem exec_input (hfit : s.fits 2) :
    exec (.input b) s =
      complete s ((takeInputByte (s.setPc (s.pc + 2))).bind fun ch u => store b (BitVec.ofNat 16 ch.toNat) u) := by
  simp only [BitVec.ofNat_toNat]
  exact congrArg (complete s) (oneTarget_fetched hfit)

theorem exec_input_queued {q : List Byte} (hfit : s.fits 2) (hq : s.inq = ch :: q) :
    exec (.input b) s = complete s (store b (BitVec.ofNat 16 ch.toNat) ((s.setPc (s.pc + 2)).setInq q)) := by
  rw [exec_input hfit, takeInputByte_queued (s := s.setPc (s.pc + 2)) hq, Micro.bind_done]

theorem exec_input_line {bs : List Byte} {hs : List HostAnswer} (hfit : s.fits 2) (hq : s.inq = [])
    (hh : s.hostAnswers = .line ch bs :: hs) :
    exec (.input b) s = complete s (store b (BitVec.ofNat 16 (lower ch).toNat)
      (((s.setPc (s.pc + 2)).setHostAnswers hs).setInq (bs.map lower))) := by
  rw [exec_input hfit, takeInputByte_line (s := s.setPc (s.pc + 2)) hq hh, Micro.bind_done]

theorem exec_input_eof {hs : List HostAnswer} (hfit : s.fits 2) (hq : s.inq = []) (hh : s.hostAnswers = .eof :: hs) :
    exec (.input b) s = complete s (.raised .endOfInput ((s.setPc (s.pc + 2)).setHostAnswers hs)) := by
  rw [exec_input hfit, takeInputByte_eof (s := s.setPc (s.pc + 2)) hq hh, Micro.bind_raised]

/-- A wait leaves the state as it is (60_exceptions.md R89). -/
theorem exec_input_waiting (hfit : s.fits 2) (hq : s.inq = []) (hh : s.hostAnswers = []) : exec (.input b) s = .next s := by
  rw [exec_input hfit, takeInputByte_waiting (s := s.setPc (s.pc + 2)) hq hh, Micro.bind_waiting, complete_waiting]

/-- An input that ends in the Store of a byte: no byte is a register reference (43_io.md R78). -/
theorem exec_input_of_store (hi : exec (.input b) s = complete s (store b (BitVec.ofNat 16 ch.toNat) u)) :
    (∀ w, b = .invalid w → Raises (.input b) s (.invalidAddress .target w)) ∧
    ∀ r, targetRegister b = some r → exec (.input b) s = .next (u.setReg r (BitVec.ofNat 16 ch.toNat)) :=
  exec_of_store_exact hi (by rw [BitVec.ofNat_toNat, reResolve_byte])

theorem step_of_waits (h : s.waits) : step s = .next s := by
  obtain ⟨hrun, hfit, ⟨b, hf⟩, hq, hh⟩ := h
  exact (step_of_fetchInstr hrun hf).trans (exec_input_waiting hfit hq hh)

end InputOutputLemmas

/-! ### The statements -/

/-- Settles O51: neither the fetch nor any micro-step of the instruction found looks at the output. -/
theorem outputHistoryDoesNotInfluence : Obligations.OutputHistoryDoesNotInfluence := by
  intro s t o h
  obtain ⟨hrun, ⟨hp, rfl⟩ | ⟨hp, hop, rfl⟩ | ⟨i, -, -, hf, he⟩⟩ := step_eq_next h
  · exact (fetchBeyondMemoryFaults (s.emittedBefore o) hrun).1 hp
  · exact step_of_invalidOpcode (s := s.emittedBefore o) hrun hp hop
  · exact (step_of_fetchInstr (s := s.emittedBefore o) hrun (fetchInstr_emittedBefore o hf)).trans (exec_emittedBefore o he)

/-- Settles O36: input waits while there is nothing to take, and a wait is a step that changes nothing; the line answered is then the
one input takes. -/
theorem inputWaitsForTheHost : Obligations.InputWaitsForTheHost := by
  refine ⟨fun b s hfit hq hh => ⟨exec_input_waiting hfit hq hh, fun r ch bs hr => ?_⟩,
    fun s k hw => run_of_step_self (step_of_waits hw) k⟩
  have hline : (s.hostReplies (.line ch bs)).hostAnswers = .line ch bs :: [] := by rw [State.hostReplies_hostAnswers, hh]; rfl
  have hanswers : s.setHostAnswers [] = s := by rw [← hh]; rfl
  obtain ⟨-, hstored⟩ := exec_input_of_store (exec_input_line (s := s.hostReplies (.line ch bs)) hfit hq hline)
  rw [hstored r hr]
  exact congrArg (fun u : State => Host.Outcome.next (((u.setPc (s.pc + 2)).setInq (bs.map lower)).setReg r _)) hanswers

/-- Settles O41: the frame of an instruction, and at most one byte or answer taken before the Store. -/
theorem inputFrame : Obligations.InputFrame := by
  intro b s t h
  have hfr := exec_frame h
  have htook := exec_input_tookAtMostOne h
  exact ⟨hfr.reg, hfr.mem nofun, hfr.stack rfl, hfr.outbuf nofun, hfr.config, htook.hostAnswers, htook.inq,
    hfr.status_eq_or_faulted nofun⟩

/-- Settles O53: the output is outside the frame of out alone, which emits at most one byte. -/
theorem outputGrowsOnlyAtOut : Obligations.OutputGrowsOnlyAtOut := by
  intro s t h
  rcases step_frame h with ⟨i, -, ho, -, he, hfr⟩ | ⟨c, p, rfl⟩
  · by_cases hi : ∃ a, i = .out a
    · obtain ⟨a, rfl⟩ := hi
      exact (exec_out_emittedAtMostOne he).imp_right fun hch => ⟨ho.symm, hch⟩
    · exact .inl (hfr.outbuf fun a e => hi ⟨a, e⟩)
  · exact .inl rfl

/-- Settles O55: the host's answers are outside the frame of input alone, which takes one only where the queue is empty. -/
theorem hostIsAskedOnlyByInputOnAnEmptyQueue : Obligations.HostIsAskedOnlyByInputOnAnEmptyQueue := by
  intro s t h hne
  rcases step_frame h with ⟨i, -, ho, -, he, hfr⟩ | ⟨c, p, rfl⟩
  · by_cases hi : ∃ b, i = .input b
    · obtain ⟨b, rfl⟩ := hi
      exact ⟨ho.symm, (exec_input_tookAtMostOne he).hostAnswers.resolve_left hne⟩
    · exact absurd (hfr.hostAnswers fun b e => hi ⟨b, e⟩) hne
  · exact absurd rfl hne

/-- Settles O34: both faults come before the byte is emitted; a value that resolves is emitted as its low byte. -/
theorem outFollowsItsRule : Obligations.OutFollowsItsRule := by
  refine fun a s => ⟨rfl, fun hp => ⟨_, _, exec_out_at_last_address hp, rfl, rfl, rfl⟩,
    fun hfit => ⟨?_, fun v ha => exec_out hfit ha⟩⟩
  rintro w rfl
  exact ⟨_, _, exec_out_invalid hfit, rfl, rfl, rfl⟩

/-- Settles O35: the end of input faults before the Store; a byte to take ends in its Store, which reports a bad target. -/
theorem inputFollowsItsRule : Obligations.InputFollowsItsRule := by
  refine ⟨fun b s hfit => ⟨rfl, fun hs hq hh => raises_of_exec (exec_input_eof hfit hq hh), fun w hb hbyte => ?_, fun r hr =>
    ⟨fun ch q hq => ?_, fun ch bs hs hq hh => ?_⟩⟩, lower_toNat⟩
  · cases hq : s.inq with
    | cons ch q => exact (exec_input_of_store (exec_input_queued hfit hq)).1 w hb
    | nil =>
      obtain ⟨ch, bs, hs, hh⟩ := hbyte.resolve_left (absurd hq)
      exact (exec_input_of_store (exec_input_line hfit hq hh)).1 w hb
  · exact (exec_input_of_store (exec_input_queued hfit hq)).2 r hr
  · exact (exec_input_of_store (exec_input_line hfit hq hh)).2 r hr

end Sys2Proof.Machine

/-! SUPPORT. Exceptions (60_exceptions.md): a run that goes on from the state another run left; the operand an instruction whose words
all lie in memory reports, shape by shape; and from these the statements of the family. -/

namespace Sys2Proof.Machine

section ExceptionLemmas

variable {s t : State} {w : Word} {ws : List Word}

/-! ### Faulted is terminal -/

theorem step_of_faulted {r : FaultRecord} (h : s.status = .faulted r) : step s = .fault (.notEnabledFaulted r) := by
  simp [step, h]

/-- The steps after the first `k` of a run are the run from the state those `k` left. -/
theorem run_add {k : Nat} (j : Nat) (h : Host.Core.run core k s = .next t) :
    Host.Core.run core (k + j) s = Host.Core.run core j t := by
  induction k generalizing s with
  | zero =>
    cases h
    rw [Nat.zero_add]
  | succ k ih =>
    obtain ⟨u, hstep, hrun⟩ := run_succ_eq_next h
    rw [Nat.add_right_comm, run_succ_next (k + j) hstep, ih hrun]

/-! ### The first value operand that does not resolve -/

theorem invalid_of_unresolvable {o : ValueOperand} (h : [o].filterMap unresolvable = w :: ws) : o = .invalid w := by
  cases o with
  | literal v => cases h
  | register i => cases h
  | invalid v =>
    cases h
    rfl

/-- Where the second operand is the one to report, the first resolves. -/
theorem invalid_or_resolves_of_unresolvable {a b : ValueOperand} (s : State) (h : [a, b].filterMap unresolvable = w :: ws) :
    a = .invalid w ∨ (∃ v, resolve a s = .done v s) ∧ b = .invalid w := by
  cases a with
  | literal v => exact .inr ⟨⟨v, rfl⟩, invalid_of_unresolvable h⟩
  | register i => exact .inr ⟨⟨s.reg i, rfl⟩, invalid_of_unresolvable h⟩
  | invalid v =>
    cases h
    exact .inl rfl

/-! ### The fault of an unresolvable operand, in each shape of instruction -/

/-- The micro-steps raise InvalidAddress(OPERAND, `w`), having moved pc alone. -/
def ReportsOperand {α : Type} (s : State) (w : Word) (m : Micro α) : Prop :=
  ∃ p, m = .raised (.invalidAddress .operand w) (s.setPc p)

theorem ReportsOperand.complete {m : Micro Unit} (h : ReportsOperand s w m) :
    ∃ p, complete s m = .next (takeFault (.invalidAddress .operand w) s.pc (s.setPc p)) := by
  obtain ⟨p, rfl⟩ := h
  exact ⟨p, rfl⟩

section Shapes

variable {α : Type} {a b c : ValueOperand} {d : TargetOperand}

/-- push, jmp, call and out. -/
theorem oneValue_reportsOperand {f : Word → State → Micro α} (hfit : s.fits 2) (h : [a].filterMap unresolvable = w :: ws) :
    ReportsOperand s w ((fetchWord s).bind fun _ s => (valueOperand a s).bind f) := by
  obtain rfl := invalid_of_unresolvable h
  exact ⟨_, oneValue_invalid hfit⟩

/-- wmem and the conditional jumps. -/
theorem twoValues_reportsOperand {f : Word → Word → State → Micro α} (hfit : s.fits 3)
    (h : [a, b].filterMap unresolvable = w :: ws) :
    ReportsOperand s w ((fetchWord s).bind fun _ s => (valueOperand a s).bind fun x s => (valueOperand b s).bind (f x)) := by
  rcases invalid_or_resolves_of_unresolvable s h with rfl | ⟨⟨v, ha⟩, rfl⟩
  · exact ⟨_, twoValues_invalid_a hfit⟩
  · exact ⟨_, twoValues_invalid_b hfit ha⟩

theorem targetAndValue_reportsOperand {eff : Word → State → Micro Word} (hfit : s.fits 3)
    (h : [b].filterMap unresolvable = w :: ws) : ReportsOperand s w (targetAndValue eff d b s) := by
  obtain rfl := invalid_of_unresolvable h
  exact ⟨_, targetAndValue_invalid hfit⟩

theorem threeOperands_reportsOperand {eff : Word → Word → State → Micro Word} (hfit : s.fits 4)
    (h : [b, c].filterMap unresolvable = w :: ws) : ReportsOperand s w (threeOperands eff d b c s) := by
  rcases invalid_or_resolves_of_unresolvable s h with rfl | ⟨⟨v, hb⟩, rfl⟩
  · exact ⟨_, threeOperands_invalid_b hfit⟩
  · exact ⟨_, threeOperands_invalid_c hfit hb⟩

end Shapes

end ExceptionLemmas

/-! ### The statements -/

/-- Settles O9: the run goes on from the Faulted state, where the first step asked for is not enabled. -/
theorem faultedIsTerminal : Obligations.FaultedIsTerminal := by
  intro s t r k j hrun hstatus
  rw [run_add (j + 1) hrun]
  exact run_succ_fault j (step_of_faulted hstatus)

/-- Settles O38: the value operands are fetched and resolved in order, before any effect, in every shape of instruction. -/
theorem firstUnresolvableOperandIsReported : Obligations.FirstUnresolvableOperandIsReported := by
  intro i s w ws hfit h
  cases i
  case halt | ret | noop | pop | input => cases h
  case push | jmp | call | out => exact (oneValue_reportsOperand hfit h).complete
  case set | not | rmem => exact (targetAndValue_reportsOperand hfit h).complete
  case jt | jf | wmem => exact (twoValues_reportsOperand hfit h).complete
  case eq | gt | add | mul | modulo | and | or => exact (threeOperands_reportsOperand hfit h).complete

end Sys2Proof.Machine

/-! SUPPORT. Reset with an image (70_reset_and_hazards.md R90, R91): the state a malformed and the state a well-formed image leave; and
from these the statement of the family. -/

namespace Sys2Proof.Machine

section ResetLemmas

variable {image : List Byte}

theorem resetWith_of_malformed (cfg : Config) (h : image.length % 2 = 1 ∨ 65536 < image.length) :
    State.resetWith cfg image = takeFault (.malformedImage image.length) 0 { State.reset with config := cfg } := if_pos h

theorem resetWith_of_wellFormed (cfg : Config) (h : ¬ (image.length % 2 = 1 ∨ 65536 < image.length)) :
    State.resetWith cfg image = ({ State.reset with config := cfg } : State).setMem (imageCells 0 image) := if_neg h

theorem byteAt_imageCells_beyond {j : Nat} (h : image.length ≤ j) : (imageCells 0 image).byteAt j = 0 := by
  have hbyte := byteAt_imageCells image 0 j
  rwa [Nat.zero_add, List.getD_eq_default _ _ h] at hbyte

theorem wordAt_imageCells_beyond {a : Nat} (h : image.length ≤ 2 * a) : (imageCells 0 image).wordAt a = 0 := by
  rw [Memory.wordAt, byteAt_imageCells_beyond h, byteAt_imageCells_beyond (Nat.le_succ_of_le h)]
  rfl

/-- The image decides memory and the status; every other field but the parameters is as reset has it (10_state.md R22). -/
theorem resetWith_eq_reset (cfg : Config) (image : List Byte) :
    ∃ m st, State.resetWith cfg image = { State.reset with config := cfg, mem := m, status := st } := by
  by_cases h : image.length % 2 = 1 ∨ 65536 < image.length
  · exact ⟨_, _, resetWith_of_malformed cfg h⟩
  · exact ⟨_, _, resetWith_of_wellFormed cfg h⟩

end ResetLemmas

/-- Settles O47: a malformed image leaves the reset memory and Faulted, which is terminal; a well-formed one lays out no cell beyond
its bytes; neither touches another field. -/
theorem imageIsValidatedAtReset : Obligations.ImageIsValidatedAtReset := by
  rintro cfg image s rfl
  refine ⟨fun hbad => ?_, fun ⟨heven, hlen⟩ => ?_, ?_⟩
  · rw [resetWith_of_malformed cfg hbad]
    exact ⟨rfl, Memory.wordAt_nil, step_of_faulted rfl⟩
  · rw [resetWith_of_wellFormed cfg (by omega)]
    exact ⟨rfl, fun _ ha => wordAt_imageCells_beyond ha⟩
  · obtain ⟨m, st, hs⟩ := resetWith_eq_reset cfg image
    rw [hs]
    exact ⟨reset_reg, rfl, rfl, rfl, rfl⟩

end Sys2Proof.Machine
